-- ==== Sys2Proof/Word.lean ====
section
/-! DEFINITION. The words of the machine: a byte, the 9-bit program counter, and a register
index (00_scope.md R7). -/

namespace Sys2Proof

/-- A byte, an unsigned integer in 0 to 255 (R7): registers, memory cells, opcode and operand bytes. -/
abbrev Byte := BitVec 8

/-- The program counter's width: 9 bits, so that `pc + n + 1` never wraps at 256 (10_state.md R15).
UNVERIFIED: the spec's decision D3 (safe for runs without a fault, log 4). -/
abbrev Pc := BitVec 9

/-- A register index that selects a register: 0 to 7 (10_state.md R11, R13). -/
abbrev RegIdx := Fin 8

/-- Register 7 is the stack pointer (10_state.md R14, parameter SP_INDEX). -/
abbrev spIdx : RegIdx := 7

end Sys2Proof
end

