-- ==== Sys2Proof/Syntax.lean ====
section
/-! DEFINITION. The nine instructions, one constructor for each row of spec/opcode_table.json
(30_encoding.md R53). An operand is the whole operand byte (R52): a byte above 7 in a register
operand is a legal operand byte of the instruction, whose handler then raises RegisterIndexError. -/

namespace Sys2Proof

/-- The nine instructions of R53; `a` is the byte at `pc + 1`, `b` and `imm` the byte at `pc + 2`. -/
inductive Instr where
  | ldi (a imm : Byte)
  | prn (a : Byte)
  | add (a b : Byte)
  | mul (a b : Byte)
  | hlt
  | push (a : Byte)
  | pop (a : Byte)
  | call (a : Byte)
  | ret
deriving DecidableEq, Repr

end Sys2Proof
end

