-- ==== Sys2Proof/WellFormed.lean ====
section
/-! DEFINITION. Which instructions name only registers that exist (30_encoding.md R52; 10_state.md R13).
An instruction that is not well formed still decodes and still runs: it raises RegisterIndexError. -/

namespace Sys2Proof

/-- The operand byte selects a register: its value is 0 to 7, no bit ignored (R52). -/
def namesRegister (a : Byte) : Bool := decide (a.toNat < 8)

/-- Every register operand selects a register. LDI's `imm` is an immediate and is never checked (R133). -/
def Instr.wellFormed : Instr → Bool
  | .ldi a _ => namesRegister a
  | .prn a => namesRegister a
  | .add a b => namesRegister a && namesRegister b
  | .mul a b => namesRegister a && namesRegister b
  | .hlt => true
  | .push a => namesRegister a
  | .pop a => namesRegister a
  | .call a => namesRegister a
  | .ret => true

end Sys2Proof
end

