-- ==== Sys2Proof/Decode.lean ====
section
/-! DEFINITION. The opcode map of 30_encoding.md R53, the decoder (total on any three bytes and on any
byte list, rejecting by name), and after it the encoder, written from the same opcode bytes. -/

namespace Sys2Proof

/-! The nine opcode bytes (R53). UNVERIFIED: the spec takes them unaudited from its source (R1; unsafe,
log 19). -/

def opLdi : Byte := 0b10000010#8
def opPrn : Byte := 0b01000111#8
def opAdd : Byte := 0b10100000#8
def opMul : Byte := 0b10100010#8
def opHlt : Byte := 0b00000001#8
def opPush : Byte := 0b01000101#8
def opPop : Byte := 0b01000110#8
def opCall : Byte := 0b01010000#8
def opRet : Byte := 0b00010001#8

/-- The opcode byte of an instruction (R53). -/
def opcodeOf : Instr → Byte
  | .ldi _ _ => opLdi
  | .prn _ => opPrn
  | .add _ _ => opAdd
  | .mul _ _ => opMul
  | .hlt => opHlt
  | .push _ => opPush
  | .pop _ => opPop
  | .call _ => opCall
  | .ret => opRet

/-- `n = ir[7:6]`, the operand count field of an opcode byte (R51; 40_fetch_decode_dispatch.md R73). -/
def operandCount (ir : Byte) : Nat := ((ir >>> 6) &&& 0b11#8).toNat

/-- The natural advance handed to a handler, `n + 1`, in the program counter's 9 bits (R73, R76). -/
def naturalAdvance (ir : Byte) : Pc := BitVec.ofNat 9 (operandCount ir + 1)

/-- Why bytes are no instruction. -/
inductive DecodeReject where
  /-- The opcode byte is not one of the nine (R55): the cycle raises DecodeError. -/
  | unknownOpcode (ir : Byte)
  /-- A byte list is empty. Only `decodeBytes` answers this; the machine always has three bytes. -/
  | noBytes
  /-- A byte list ends before the instruction does. Only `decodeBytes` answers this. -/
  | truncated (ir : Byte)
deriving DecidableEq, Repr

/-- Step 4 of the cycle (R75, R54): the whole opcode byte is compared with the nine values; the operand
bytes take no part in selecting the instruction, and a slot the instruction does not use is ignored
(R57). -/
def decode (ir a b : Byte) : Except DecodeReject Instr :=
  if ir = opLdi then .ok (.ldi a b)
  else if ir = opPrn then .ok (.prn a)
  else if ir = opAdd then .ok (.add a b)
  else if ir = opMul then .ok (.mul a b)
  else if ir = opHlt then .ok .hlt
  else if ir = opPush then .ok (.push a)
  else if ir = opPop then .ok (.pop a)
  else if ir = opCall then .ok (.call a)
  else if ir = opRet then .ok .ret
  else .error (.unknownOpcode ir)

/-- The first instruction of a byte list and the bytes after it. Its length is `n + 1` (R50). -/
def decodeBytes : List Byte → Except DecodeReject (Instr × List Byte)
  | [] => .error .noBytes
  | ir :: rest =>
    match decode ir (rest.getD 0 0#8) (rest.getD 1 0#8) with
    | .error e => .error e
    | .ok i =>
      if rest.length < operandCount ir then .error (.truncated ir)
      else .ok (i, rest.drop (operandCount ir))

/-- The bytes of an instruction, at ascending addresses: opcode, operand a, operand b
(R50, R58; 20_memory.md R34). -/
def encode : Instr → List Byte
  | .ldi a imm => [opLdi, a, imm]
  | .prn a => [opPrn, a]
  | .add a b => [opAdd, a, b]
  | .mul a b => [opMul, a, b]
  | .hlt => [opHlt]
  | .push a => [opPush, a]
  | .pop a => [opPop, a]
  | .call a => [opCall, a]
  | .ret => [opRet]

/-- Byte `k` of an instruction whose bits spec/opcode_table.json numbers from bit 0 of its first byte;
every bit from `nbits` on is 0. -/
def tableByte (nbits w k : Nat) : Byte := BitVec.ofNat 8 ((w % 2 ^ nbits) >>> (8 * k))

/-- The three bytes a cycle reads, laid out from such a word: the first byte at the lowest address. -/
def tableBytes (nbits w : Nat) : List Byte :=
  [tableByte nbits w 0, tableByte nbits w 1, tableByte nbits w 2]

/-- What the decoder reads from such a word. -/
def decodeTableWord (nbits w : Nat) : Option Instr :=
  (decode (tableByte nbits w 0) (tableByte nbits w 1) (tableByte nbits w 2)).toOption

end Sys2Proof
end

