-- ==== Sys2Proof/Config.lean ====
section
/-! DEFINITION. The implementation parameters of 00_scope.md R6. The hardware has one configuration.
The spec decides every value the source leaves open, so there is no free value here. -/

namespace Sys2Proof.Config

/-- `MEM_CELLS`: addresses 0 to 255 exist (20_memory.md R30). -/
def memCells : Nat := 256

/-- `SP_RESET`: the source's own value of register 7 (10_state.md R14, R23). -/
def spReset : Byte := 0xF4#8

/-- `REG_RESET`: registers 0 to 6 (R23). UNVERIFIED: the spec's decision D1, not the source's word
(unsafe, log 1). -/
def regReset : Byte := 0#8

/-- `PC_RESET`: the entry point (R23). UNVERIFIED: the spec's decision D2 (unsafe, log 2). -/
def pcReset : Pc := 0#9

/-- `MEM_FILL`: what a cell holds that nothing has written (R23). UNVERIFIED: the spec's decision D4
(unsafe, log 3). -/
def memFill : Byte := 0#8

/-- `LOAD_BASE`: the address of the first image byte (20_memory.md R44). -/
def loadBase : Nat := 0

end Sys2Proof.Config
end

