-- ==== Sys2Proof/Machine/State.lean ====
section
/-! DEFINITION. The state of the machine: the tuple of 10_state.md R10 and nothing else; why a step can
stop; and the state after reset (R23). -/

namespace Sys2Proof.Machine

/-- The run state (10_state.md R17). HALTED and FAULTED are terminal. -/
inductive RunState where
  | running
  | halted
  | faulted
deriving DecidableEq, Repr

/-- The causes a fault record can name (60_exceptions.md R130). -/
inductive Cause where
  /-- Code 1: the opcode byte is not one of the nine (R131). -/
  | decodeError
  /-- Code 2: listed so that the code space is complete; nothing raises it (R134, 42_alu.md R104). -/
  | unsupportedOperation
  /-- Code 3: a fetch address above 255 (R132). -/
  | addressRange
  /-- Code 4: an operand byte used as a register index is above 7 (R133). -/
  | registerIndex
deriving DecidableEq, Repr

/-- The fault record `(cause, opcode, addr)` of 10_state.md R18. `addr` is a plain number: the spec
gives the field no width, and an out-of-range address is not reduced (DESIGN CHOICE, safe, log 20). -/
structure FaultRecord where
  cause : Cause
  opcode : Option Byte
  addr : Nat
deriving DecidableEq, Repr

/-- Memory as data: the cells that differ from `Config.memFill`, at strictly rising addresses. An
unlisted address reads as `Config.memFill`. -/
abbrev Memory := List Host.Cell

/-- The complete state of the machine (10_state.md R10). -/
structure State where
  /-- The eight registers; index 7 is the stack pointer (R11, R14). -/
  x : Vector Byte 8
  /-- The program counter (R15). -/
  pc : Pc
  /-- The 256 cells shared by code, data and stack (R19; 20_memory.md R30). -/
  mem : Memory
  /-- The run state (R17). -/
  run : RunState
  /-- The fault record; none while no fault is recorded (R18, R23). -/
  fault : Option FaultRecord
  /-- The values emitted by PRN, in execution order, the first at the head (R20). -/
  out : List Byte
deriving DecidableEq, Repr

/-- Why a step stops. Both are the spec's own terminal states: a machine that has halted or faulted has
no step (10_state.md R17; 40_fetch_decode_dispatch.md R70). DEDUCED, safe, log 21. -/
inductive Fault where
  /-- Raised by `step` in a state with run = HALTED. Safe: the spec gives that state no step. -/
  | halted
  /-- Raised by `step` in a state with run = FAULTED. Safe: the spec gives that state no step. -/
  | faulted
deriving DecidableEq, Repr

/-- What the model gives no meaning. -/
inductive Refusal where
  /-- An instruction that has no meaning yet; no arm of `exec` answers it now. Safe. -/
  | notModelled (mnemonic : String)
  /-- Raised by `launch` for an image of more than 256 bytes: no launch (20_memory.md R44, D12). Safe. -/
  | imageTooLong (length : Nat)
deriving DecidableEq, Repr

/-- The machine right after reset (10_state.md R23; 70_reset_and_hazards.md R150). -/
def State.reset : State where
  x := (Vector.replicate 8 Config.regReset).set 7 Config.spReset
  pc := Config.pcReset
  mem := []
  run := .running
  fault := none
  out := []

end Sys2Proof.Machine
end

