-- ==== Sys2Proof/Machine/Ops.lean ====
section
/-! DEFINITION. The named operations over registers, memory, stack, program counter and output that
every meaning is written with (00_scope.md R8), and raising an exception as one shared operation
(60_exceptions.md R137). There is no return from an exception (R138). -/

namespace Sys2Proof.Machine

/-- The byte at an address; an unlisted address reads as `Config.memFill`. -/
def Memory.read : Memory → Nat → Byte
  | [], _ => Config.memFill
  | (k, w) :: m, addr => if k = addr then w else Memory.read m addr

/-- Put a byte at an address, keeping the canonical form: writing `Config.memFill` removes the entry. -/
def Memory.write : Memory → Nat → Byte → Memory
  | [], addr, v => if v = Config.memFill then [] else [(addr, v)]
  | (k, w) :: m, addr, v =>
    if addr < k then (if v = Config.memFill then (k, w) :: m else (addr, v) :: (k, w) :: m)
    else if addr = k then (if v = Config.memFill then m else (k, v) :: m)
    else (k, w) :: Memory.write m addr v

/-- The canonical form above a lower bound: addresses strictly rise, exist, and hold no fill byte. -/
def Memory.wfFrom : Nat → Memory → Bool
  | _, [] => true
  | lo, (k, w) :: m =>
    decide (lo ≤ k) && decide (k < Config.memCells) && decide (w ≠ Config.memFill)
      && Memory.wfFrom (k + 1) m

/-- The canonical form of memory: addresses strictly rising and below 256 (20_memory.md R30), no entry
equal to what an unlisted address reads as. -/
def Memory.wf (m : Memory) : Bool := Memory.wfFrom 0 m

/-- `x[i]`, a read of a register (R8). -/
def State.readReg (s : State) (i : RegIdx) : Byte := s.x[i]

/-- `x[i] <- v`, the masked write path: the register receives `v mod 256`, whatever integer was computed
(10_state.md R12). -/
def State.writeReg (s : State) (i : RegIdx) (v : Int) : State :=
  { s with x := s.x.set i (BitVec.ofInt 8 v) }

/-- The stack pointer, register 7 (10_state.md R14). -/
def State.sp (s : State) : Byte := s.readReg spIdx

/-- `MemRead(addr, 1)` (20_memory.md R31); none stands for AddressRangeError(addr). -/
def State.memRead? (s : State) (addr : Nat) : Option Byte :=
  if addr < Config.memCells then some (Memory.read s.mem addr) else none

/-- `MemWrite(addr, 1, v)` (20_memory.md R31); none stands for AddressRangeError(addr). -/
def State.memWrite? (s : State) (addr : Nat) (v : Byte) : Option State :=
  if addr < Config.memCells then some { s with mem := Memory.write s.mem addr v } else none

/-- `MemRead` at an address held in a byte, always in range (10_state.md R14; 20_memory.md R32). -/
def State.load (s : State) (addr : Byte) : Byte := Memory.read s.mem addr.toNat

/-- `MemWrite` at an address held in a byte, always in range (10_state.md R14; 20_memory.md R32). -/
def State.store (s : State) (addr : Byte) (v : Byte) : State :=
  { s with mem := Memory.write s.mem addr.toNat v }

/-- The first half of `StackPush` (44_stack.md R115): `sp` goes down by one, modulo 256, and
nothing checks it (R118). UNVERIFIED: the spec's decision D13 (unsafe, log 13). -/
def State.decSp (s : State) : State := s.writeReg spIdx ((s.sp.toNat : Int) - 1)

/-- The second half of `StackPop` (44_stack.md R115): `sp` goes up by one, modulo 256. -/
def State.incSp (s : State) : State := s.writeReg spIdx ((s.sp.toNat : Int) + 1)

/-- `StackPush(v)` (44_stack.md R115): decrement, then write at the new `sp`. -/
def State.stackPush (s : State) (v : Byte) : State := s.decSp.store s.decSp.sp v

/-- `StackPop()` (44_stack.md R115): read at `sp`, then increment; the cell keeps its byte. -/
def State.stackPop (s : State) : Byte × State := (s.load s.sp, s.incSp)

/-- `zext_9` (R7): a byte placed in the 9-bit program counter. -/
def zext9 (v : Byte) : Pc := v.setWidth 9

/-- `pc <- v` (R8). -/
def State.setPc (s : State) (v : Pc) : State := { s with pc := v }

/-- The natural advance past the instruction with this opcode byte: `pc <- pc + n + 1`, not reduced
modulo 256 (40_fetch_decode_dispatch.md R76; 10_state.md R15). -/
def State.advance (s : State) (ir : Byte) : State := s.setPc (s.pc + naturalAdvance ir)

/-- `Output(v)` (R8): append to `out` (10_state.md R20). -/
def State.output (s : State) (v : Byte) : State := { s with out := s.out ++ [v] }

/-- `run <- HALTED` (40_fetch_decode_dispatch.md R77). -/
def State.halt (s : State) : State := { s with run := .halted }

/-- Raising an exception (60_exceptions.md R137): the record is written, run becomes FAULTED, and `x`,
`pc`, `mem`, `out` stay as they are. UNVERIFIED: the spec's decisions D5 (safe, log 5) and D9 (unsafe
for claims about a faulted state, log 9). -/
def State.raise (s : State) (cause : Cause) (opcode : Option Byte) (addr : Nat) : State :=
  { s with run := .faulted, fault := some { cause := cause, opcode := opcode, addr := addr } }

/-- RegisterIndexError of the instruction with this opcode byte: `addr` is the pc of the faulting cycle
(60_exceptions.md R133, R130). -/
def State.raiseRegisterIndex (s : State) (ir : Byte) : State :=
  s.raise .registerIndex (some ir) s.pc.toNat

/-- Bytes written to consecutive ascending addresses; a byte whose address does not exist is not
written. -/
def State.placeBytes (s : State) (addr : Nat) : List Byte → State
  | [] => s
  | v :: vs => State.placeBytes ((s.memWrite? addr v).getD s) (addr + 1) vs

end Sys2Proof.Machine
end

