-- ==== Sys2Proof/Machine/Flags.lean ====
section
/-! DEFINITION. What arithmetic yields. The hardware has no flags, no carry, no overflow bit
(10_state.md R16), so the arithmetic unit yields its result and nothing else (42_alu.md R100). -/

namespace Sys2Proof.Machine

/-- The arithmetic unit's two operations. Any other operation is unrepresentable, as 42_alu.md R104
allows (DEDUCED, safe, log 22). -/
inductive AluOp where
  | add
  | mul
deriving DecidableEq, Repr

/-- `ALU(op, u, v)` (42_alu.md R100): exact over the naturals, then modulo 256. -/
def alu (op : AluOp) (u v : Byte) : Byte :=
  match op with
  | .add => BitVec.ofNat 8 ((u.toNat + v.toNat) % 256)
  | .mul => BitVec.ofNat 8 ((u.toNat * v.toNat) % 256)

end Sys2Proof.Machine
end

