-- ==== Sys2Proof/Machine/Operands.lean ====
section
/-! DEFINITION. Operand decoding (30_encoding.md R52). There are two operand kinds: a register index,
the whole byte, and LDI's immediate, the whole byte used as it is. There is no addressing mode. -/

namespace Sys2Proof.Machine

/-- The register an operand byte selects: the byte's value when it is 0 to 7, none for 8 to 255; the
index is not reduced modulo 8 (10_state.md R13). UNVERIFIED: the spec's decision D7 (safe for runs
without a fault, log 7). -/
def regOperand (a : Byte) : Option RegIdx :=
  if h : a.toNat < 8 then some ⟨a.toNat, h⟩ else none

/-- A meaning with one register operand: RegisterIndexError comes before any write (60_exceptions.md
R133; 40_fetch_decode_dispatch.md R78), else the body runs on the register selected. -/
def withReg (ir a : Byte) (s : State) (body : RegIdx → State) :
    Host.Outcome State Fault Refusal :=
  match regOperand a with
  | none => .next (s.raiseRegisterIndex ir)
  | some r => .next (body r)

/-- A meaning with two register operands, `a` checked first (R133, R136). -/
def withRegs (ir a b : Byte) (s : State) (body : RegIdx → RegIdx → State) :
    Host.Outcome State Fault Refusal :=
  match regOperand a with
  | none => .next (s.raiseRegisterIndex ir)
  | some ra =>
    match regOperand b with
    | none => .next (s.raiseRegisterIndex ir)
    | some rb => .next (body ra rb)

end Sys2Proof.Machine
end

