-- ==== Sys2Proof/Machine/Arith.lean ====
section
/-! DEFINITION. ADD and MUL (42_alu.md). -/

namespace Sys2Proof.Machine

/-- `x[a] <- ALU(op, x[a], x[b])`, both reads before the write (R101, R102). -/
def State.aluInto (s : State) (op : AluOp) (ra rb : RegIdx) : State :=
  s.writeReg ra (alu op (s.readReg ra) (s.readReg rb)).toNat

/-- ADD `Ra,Rb` (R101): `x[a] <- (x[a] + x[b]) mod 256`, `pc <- pc + 3`. -/
def execAdd (a b : Byte) (s : State) : Host.Outcome State Fault Refusal :=
  withRegs opAdd a b s fun ra rb => (s.aluInto .add ra rb).advance opAdd

/-- MUL `Ra,Rb` (R102): `x[a] <- (x[a] * x[b]) mod 256`, `pc <- pc + 3`. -/
def execMul (a b : Byte) (s : State) : Host.Outcome State Fault Refusal :=
  withRegs opMul a b s fun ra rb => (s.aluInto .mul ra rb).advance opMul

end Sys2Proof.Machine
end

