-- ==== Sys2Proof/Machine/Halt.lean ====
section
/-! DEFINITION. HLT (43_halt.md). There is no other system instruction (R111). -/

namespace Sys2Proof.Machine

/-- HLT (R110): `pc <- pc + 1`, then `run <- HALTED`. The advance is the spec's decision D16
(UNVERIFIED, unsafe, log 16). -/
def execHlt (s : State) : Host.Outcome State Fault Refusal :=
  .next (s.advance opHlt).halt

end Sys2Proof.Machine
end

