-- ==== Sys2Proof/Machine/LoadPrint.lean ====
section
/-! DEFINITION. LDI and PRN (41_ldi_prn.md). -/

namespace Sys2Proof.Machine

/-- LDI `Ra,imm` (R90): `x[a] <- imm`, `pc <- pc + 3`; `a > 7` raises RegisterIndexError. -/
def execLdi (a imm : Byte) (s : State) : Host.Outcome State Fault Refusal :=
  withReg opLdi a s fun r => (s.writeReg r imm.toNat).advance opLdi

/-- PRN `Ra` (R91): `x[a]` is appended to `out`, `pc <- pc + 2`; `a > 7` raises RegisterIndexError
before anything is emitted. -/
def execPrn (a : Byte) (s : State) : Host.Outcome State Fault Refusal :=
  withReg opPrn a s fun r => (s.output (s.readReg r)).advance opPrn

end Sys2Proof.Machine
end

