-- ==== Sys2Proof/Machine/Stack.lean ====
section
/-! DEFINITION. PUSH and POP (44_stack.md). No bounds are checked (R118). The order of the statements
of each effect settles register 7 as the operand: the spec's decision D15 (UNVERIFIED, unsafe, log 15). -/

namespace Sys2Proof.Machine

/-- PUSH `Ra` (R116): `sp` goes down, then `x[a]`, read after the decrement, is written at the new
`sp`; `pc <- pc + 2`. -/
def execPush (a : Byte) (s : State) : Host.Outcome State Fault Refusal :=
  withReg opPush a s fun r => (s.stackPush (s.decSp.readReg r)).advance opPush

/-- POP `Ra` (R117): `x[a]` receives the byte at `sp`, then `sp`, read after that write, goes up;
`pc <- pc + 2`. -/
def execPop (a : Byte) (s : State) : Host.Outcome State Fault Refusal :=
  withReg opPop a s fun r => (s.writeReg r (s.load s.sp).toNat).incSp.advance opPop

end Sys2Proof.Machine
end

