-- ==== Sys2Proof/Machine/Subroutine.lean ====
section
/-! DEFINITION. CALL and RET (45_subroutine.md). Both set `pc` explicitly and never apply the natural
advance (40_fetch_decode_dispatch.md R76). -/

namespace Sys2Proof.Machine

/-- The return address CALL pushes, `pc + 2` (R120). A CALL runs only with `pc` at most 253, where the
sum fits a byte; outside a cycle the low 8 bits are taken (DESIGN CHOICE, unsafe, log 23). -/
def State.returnAddress (s : State) : Byte := BitVec.ofNat 8 (s.pc.toNat + 2)

/-- CALL `Ra` (R120): the return address is pushed, then `pc <- zext_9(x[a])`, `x[a]` read after the
push (UNVERIFIED: D15, unsafe, log 15). -/
def execCall (a : Byte) (s : State) : Host.Outcome State Fault Refusal :=
  withReg opCall a s fun r =>
    (s.stackPush s.returnAddress).setPc (zext9 ((s.stackPush s.returnAddress).readReg r))

/-- RET (R121): `pc` receives the byte popped, zero extended. -/
def execRet (s : State) : Host.Outcome State Fault Refusal :=
  .next (s.stackPop.2.setPc (zext9 s.stackPop.1))

end Sys2Proof.Machine
end

