-- ==== Sys2Proof/Machine/Cycle.lean ====
section
/-! DEFINITION. One cycle of a running machine: fetch, decode, execute (40_fetch_decode_dispatch.md
R71). -/

namespace Sys2Proof.Machine

/-- The three bytes a cycle reads: the per-cycle temporaries of R8, which are not state. -/
structure Fetched where
  ir : Byte
  a : Byte
  b : Byte
deriving DecidableEq, Repr

/-- Steps 1 and 3 (R72, R74): the opcode at `pc`, then both operand slots, whatever the opcode is, each
read range-checked (UNVERIFIED: the spec's decisions D3 and D8, safe for runs without a
fault, logs 4 and 8). On the first read out of range the answer is
the state with AddressRangeError raised (R132). -/
def fetch (s : State) : Except State Fetched :=
  match s.memRead? s.pc.toNat with
  | none => .error (s.raise .addressRange none s.pc.toNat)
  | some ir =>
    match s.memRead? (s.pc.toNat + 1) with
    | none => .error (s.raise .addressRange (some ir) (s.pc.toNat + 1))
    | some a =>
      match s.memRead? (s.pc.toNat + 2) with
      | none => .error (s.raise .addressRange (some ir) (s.pc.toNat + 2))
      | some b => .ok { ir := ir, a := a, b := b }

/-- One cycle (R71); it requires run = RUNNING, which `step` checks. An opcode that is not one of the
nine raises DecodeError (R75, R131), after the fetch, so a fetch fault comes first (R136). -/
def cycle (s : State) : Host.Outcome State Fault Refusal :=
  match fetch s with
  | .error s' => .next s'
  | .ok f =>
    match decode f.ir f.a f.b with
    | .error _ => .next (s.raise .decodeError (some f.ir) s.pc.toNat)
    | .ok i => exec i s

end Sys2Proof.Machine
end

