-- ==== Sys2Proof/Machine/Step.lean ====
section
/-! DEFINITION. One step of the machine, and an instruction placed where the next step fetches. -/

namespace Sys2Proof.Machine

/-- One step is one cycle (40_fetch_decode_dispatch.md R71, UNVERIFIED: the spec's
decision D17, safe, log 17), and only a running machine has
one (R70): in HALTED and FAULTED the step stops under that name. -/
def step (s : State) : Host.Outcome State Fault Refusal :=
  match s.run with
  | .running => cycle s
  | .halted => .fault .halted
  | .faulted => .fault .faulted

/-- `s` with an instruction's bytes stored from `pc` on, where `step` fetches. Nothing else changes: at
a `pc` above 253, where the spec lets no instruction run (R74), the bytes that fit are stored
(DESIGN CHOICE, safe, log 14). -/
def State.withFetchWord (s : State) (nbits w : Nat) : State :=
  s.placeBytes s.pc.toNat (tableBytes nbits w)

end Sys2Proof.Machine
end

