-- ==== Sys2Proof/Machine/Launch.lean ====
section
/-! DEFINITION. What the host does before a run and reads after it (70_reset_and_hazards.md R151, R159):
launching an image, the decimal rendering of the output, the exit status, the numeric cause codes. -/

namespace Sys2Proof.Machine

/-- Reset, load, start (R151): the image's byte `k` goes to address `k`, every other cell and every
other element keeps its reset value (20_memory.md R44). A longer image than memory is refused, not
truncated (UNVERIFIED: the spec's decision D12, safe, log 12). -/
def launch (image : List Byte) : Host.Outcome State Fault Refusal :=
  if image.length ≤ Config.memCells then .next (State.reset.placeBytes Config.loadBase image)
  else .refused (.imageTooLong image.length)

/-- The numeric code of a cause (60_exceptions.md R130; UNVERIFIED: the spec's decision D6, safe, log 6). -/
def Cause.code : Cause → Nat
  | .decodeError => 1
  | .unsupportedOperation => 2
  | .addressRange => 3
  | .registerIndex => 4

/-- What the host's exit status shows: zero or non-zero, nothing finer (R148; UNVERIFIED: the spec's
decision D10, safe, log 10). -/
inductive ExitStatus where
  | zero
  | nonZero
deriving DecidableEq, Repr

/-- The exit status of an ended run; none while it runs (R148). -/
def State.exitStatus (s : State) : Option ExitStatus :=
  match s.run with
  | .running => none
  | .halted => some .zero
  | .faulted => some .nonZero

/-- What the host reports of a fault: the opcode, if one was read, and the address (R149). -/
def State.faultReport (s : State) : Option (Option Byte × Nat) :=
  s.fault.map fun r => (r.opcode, r.addr)

/-- One output value as the host prints it: the unsigned decimal numeral, then one LF (41_ldi_prn.md
R92; UNVERIFIED: the spec's decision D11, safe, log 11). -/
def renderByte (v : Byte) : List Char := Nat.toDigits 10 v.toNat ++ ['\n']

/-- The whole output as the host prints it, one value a line, in execution order (R92). -/
def State.rendered (s : State) : List Char := s.out.flatMap renderByte

end Sys2Proof.Machine
end

