-- ==== Sys2Proof/Safety.lean ====
section
/-! DEFINITION. The terms claims are stated in: what the next cycle reads, which opcode bytes are legal,
what a fault record means, when a run has ended, and the invariant that every step keeps. -/

namespace Sys2Proof.Machine

/-- The byte at `pc`, the opcode byte of the next cycle. -/
def State.opcodeAt (s : State) : Byte := Memory.read s.mem s.pc.toNat

/-- The byte at `pc + 1`, operand slot a of the next cycle. -/
def State.slotA (s : State) : Byte := Memory.read s.mem (s.pc.toNat + 1)

/-- The byte at `pc + 2`, operand slot b of the next cycle. -/
def State.slotB (s : State) : Byte := Memory.read s.mem (s.pc.toNat + 2)

/-- The nine legal opcode bytes, written out in hexadecimal from 30_encoding.md R53. -/
def legalOpcodes : List Byte :=
  [0x82#8, 0x47#8, 0xA0#8, 0xA2#8, 0x01#8, 0x45#8, 0x46#8, 0x50#8, 0x11#8]

/-- The opcode bytes whose operand a is a register index (60_exceptions.md R133). -/
def indexedOpcodes : List Byte :=
  [0x82#8, 0x47#8, 0xA0#8, 0xA2#8, 0x45#8, 0x46#8, 0x50#8]

/-- The next cycle's instruction uses as a register index an operand byte that is above 7 (R133). -/
abbrev State.badIndex (s : State) : Prop :=
  (s.opcodeAt ∈ indexedOpcodes ∧ 8 ≤ s.slotA.toNat) ∨
    (s.opcodeAt ∈ [0xA0#8, 0xA2#8] ∧ 8 ≤ s.slotB.toNat)

/-- Every byte of memory reads the same in both states. -/
def SameMemory (s t : State) : Prop := ∀ addr, Memory.read t.mem addr = Memory.read s.mem addr

/-- The record of a faulted state says why it faulted: since a fault changes nothing but `run` and
`fault`, the culprit still stands in memory at `pc` (60_exceptions.md R130, R137; 10_state.md R18). -/
def Explains (s : State) (r : FaultRecord) : Prop :=
  match r.cause with
  | .decodeError =>
    s.pc.toNat ≤ 253 ∧ s.opcodeAt ∉ legalOpcodes ∧ r.opcode = some s.opcodeAt ∧ r.addr = s.pc.toNat
  | .unsupportedOperation => False
  | .addressRange =>
    254 ≤ s.pc.toNat ∧ r.opcode = (if s.pc.toNat ≤ 255 then some s.opcodeAt else none) ∧ r.addr = 256
  | .registerIndex =>
    s.pc.toNat ≤ 253 ∧ s.badIndex ∧ r.opcode = some s.opcodeAt ∧ r.addr = s.pc.toNat

/-- What every step keeps. -/
structure StateInv (s : State) : Prop where
  /-- Memory is in its canonical form: only cells 0 to 255 are held. -/
  memCanonical : Memory.wf s.mem = true
  /-- 256 is the largest value the program counter reaches (10_state.md R15). -/
  pcReach : s.pc.toNat ≤ 256
  /-- A fault is recorded exactly in FAULTED (10_state.md R18, R23). -/
  recordIffFaulted : s.run = .faulted ↔ s.fault.isSome = true
  /-- A recorded fault is explained by `pc` and memory. -/
  recordExplains : ∀ r, s.fault = some r → Explains s r
  /-- In HALTED, `pc` is one past an HLT byte at 253 or below (70_reset_and_hazards.md R158). -/
  haltedPastHlt : s.run = .halted →
    ∃ p, p ≤ 253 ∧ s.pc.toNat = p + 1 ∧ Memory.read s.mem p = 0x01#8

/-- A run has ended (70_reset_and_hazards.md R158). -/
def State.ended (s : State) : Prop := s.run ≠ .running

/-- A safe state: no fault was raised (60_exceptions.md R137, "a model's no-fault premise"). -/
def State.safe (s : State) : Prop := s.run ≠ .faulted

end Sys2Proof.Machine
end

