-- ==== Sys2Proof/Certificates/Slice0/Obligations.lean ====
section
/-! DEFINITION. The statements for the provers. Each docstring names the rule of spec/ a statement
formalises, and the spec's own decision (D1 to D19 of 92_eei_decisions.md) it rests on, if any. -/

open Sys2Proof Sys2Proof.Machine

/-! ### Reset, launch, the invariant -/

/-- The state after reset, 10_state.md R23. Of its values only 0xF4 is the source's; the others are the
spec's decisions D1, D2, D4 and D5. -/
def Obligations.ResetStateAsSpecified : Prop :=
  State.reset.sp = 0xF4#8 ∧ (∀ r : RegIdx, r ≠ 7 → State.reset.readReg r = 0#8) ∧
  State.reset.pc = 0#9 ∧ (∀ addr, Memory.read State.reset.mem addr = 0#8) ∧
  State.reset.run = .running ∧ State.reset.fault = none ∧ State.reset.out = []

/-- The invariant holds right after reset. Memory's canonical form is the model's (log 3), the reset of
`pc` the spec's decision D2 (log 2), the record its decision D5 (log 5). -/
def Obligations.ResetSatisfiesInvariant : Prop := StateInv State.reset

/-- Launch, 70_reset_and_hazards.md R151 and 20_memory.md R44: an image of at most 256 bytes stands at
addresses 0, 1, 2, ... of the reset state; a longer one is refused. The refusal is the spec's decision
D12, the 0 beyond the image its decision D4 (log 3), `pc = 0` its decision D2 (log 2), the fault record
its decision D5 (log 5). -/
def Obligations.LaunchPlacesImage : Prop :=
  ∀ image : List Byte,
    (image.length ≤ 256 → ∃ s, launch image = .next s ∧ StateInv s ∧
      (∀ k, Memory.read s.mem k = image.getD k 0#8) ∧ s.x = State.reset.x ∧ s.pc = 0#9 ∧
      s.run = .running ∧ s.fault = none ∧ s.out = []) ∧
    (256 < image.length → launch image = .refused (.imageTooLong image.length))

/-- Every step keeps the invariant, from every state that has it. Its clauses rest on the spec's own
decisions: `pc` at most 256 and the address 256 on D3 and D8 (logs 4, 8), the record on D5 (log 5), the
bad index on D7 (log 7), the culprit still at `pc` on D9 (log 9), `pc` one past HLT on D16 (log 16); the
canonical form is the model's, over the fill value of D4 (log 3). -/
def Obligations.StepKeepsInvariant : Prop :=
  ∀ s t : State, StateInv s → step s = .next t → StateInv t

/-- Every state of every run of every image that launches has the invariant. It rests on the decisions
that `StepKeepsInvariant` names (D3, D5, D7, D8, D9, D16; logs 4, 5, 7, 8, 9, 16) and, for the launched
state, on D2 and D4 (logs 2, 3). -/
def Obligations.LaunchedRunKeepsInvariant : Prop :=
  ∀ (image : List Byte) (s t : State) (k : Nat),
    launch image = .next s → core.run k s = .next t → StateInv t

/-- No run, from any state, ends in a refusal: every instruction has its meaning. -/
def Obligations.NoRunIsRefused : Prop :=
  ∀ (s : State) (k : Nat) (r : Refusal), core.run k s ≠ .refused r

/-! ### Encoding -/

/-- Decoder and encoder agree in both directions: a byte list decodes to an instruction and a rest
exactly when it is that instruction's bytes followed by the rest (30_encoding.md R50, R53, R58). Every
operand byte is covered, indices above 7 too. -/
def Obligations.DecodeEncodeAgree : Prop :=
  ∀ (bytes : List Byte) (i : Instr) (rest : List Byte),
    decodeBytes bytes = .ok (i, rest) ↔ bytes = encode i ++ rest

/-- 30_encoding.md R54: the whole opcode byte is matched against the nine values, and the operand bytes
take no part in selecting the instruction. -/
def Obligations.WholeOpcodeByteSelects : Prop :=
  ∀ ir a b : Byte,
    (ir ∈ legalOpcodes → ∃ i, decode ir a b = .ok i ∧ opcodeOf i = ir) ∧
    (ir ∉ legalOpcodes → decode ir a b = .error (.unknownOpcode ir)) ∧
    (∀ i a' b' i', decode ir a b = .ok i → decode ir a' b' = .ok i' → opcodeOf i = opcodeOf i')

/-- The nine opcode bytes of 30_encoding.md R53, written out bit by bit, and the illegal neighbours of
95_test_vectors.md section 2.1. -/
def Obligations.OpcodeBytesDecode : Prop :=
  ∀ a b : Byte,
    decode 0b10000010#8 a b = .ok (.ldi a b) ∧ decode 0b01000111#8 a b = .ok (.prn a) ∧
    decode 0b10100000#8 a b = .ok (.add a b) ∧ decode 0b10100010#8 a b = .ok (.mul a b) ∧
    decode 0b00000001#8 a b = .ok .hlt ∧ decode 0b01000101#8 a b = .ok (.push a) ∧
    decode 0b01000110#8 a b = .ok (.pop a) ∧ decode 0b01010000#8 a b = .ok (.call a) ∧
    decode 0b00010001#8 a b = .ok .ret ∧
    decode 0b00000000#8 a b = .error (.unknownOpcode 0b00000000#8) ∧
    decode 0b11000010#8 a b = .error (.unknownOpcode 0b11000010#8) ∧
    decode 0b10100001#8 a b = .error (.unknownOpcode 0b10100001#8)

/-- 30_encoding.md R57: an instruction with n = 0 ignores both slots, one with n = 1 ignores slot b, an
illegal opcode ignores both, whatever bytes they hold. -/
def Obligations.UnusedSlotsIgnored : Prop :=
  ∀ ir a b a' b' : Byte,
    (operandCount ir = 0 ∨ ir ∉ legalOpcodes → decode ir a b = decode ir a' b') ∧
    (operandCount ir = 1 → decode ir a b = decode ir a b')

/-! ### The cycle -/

/-- A running machine whose bytes at `pc` decode to an instruction runs exactly that instruction
(40_fetch_decode_dispatch.md R71). The bound 253 is the spec's decision D8. -/
def Obligations.StepRunsDecodedInstruction : Prop :=
  ∀ (s : State) (i : Instr), s.run = .running → s.pc.toNat ≤ 253 →
    decode s.opcodeAt s.slotA s.slotB = .ok i → step s = exec i s

/-- An instruction placed where the next step fetches is the one the next step runs, and placing it
changes three bytes of memory and nothing else (the model's `withFetchWord`, log 14). The bound 253 is
the spec's decision D8. -/
def Obligations.PlacedWordRunsNext : Prop :=
  ∀ (s : State) (nbits w : Nat) (i : Instr), Memory.wf s.mem = true → s.run = .running →
    s.pc.toNat ≤ 253 → decodeTableWord nbits w = some i →
    step (s.withFetchWord nbits w) = exec i (s.withFetchWord nbits w) ∧
    (s.withFetchWord nbits w).x = s.x ∧ (s.withFetchWord nbits w).pc = s.pc ∧
    (s.withFetchWord nbits w).run = s.run ∧ (s.withFetchWord nbits w).fault = s.fault ∧
    (s.withFetchWord nbits w).out = s.out ∧
    ∀ addr, addr < s.pc.toNat ∨ s.pc.toNat + 3 ≤ addr →
      Memory.read (s.withFetchWord nbits w).mem addr = Memory.read s.mem addr

/-- A step exists exactly from a running state (40_fetch_decode_dispatch.md R70; FAULTED is the spec's
decision D5); from the two terminal states the step stops under that name (log 21). -/
def Obligations.StepExistsExactlyWhenRunning : Prop :=
  ∀ s : State, ((∃ t, step s = .next t) ↔ s.run = .running) ∧
    (s.run = .halted → step s = .fault .halted) ∧ (s.run = .faulted → step s = .fault .faulted)

/-- 40_fetch_decode_dispatch.md R74, with R72: a cycle that starts at 254 or above raises
AddressRangeError, whatever the opcode: the spec's decisions D3 and D8 (logs 4, 8). That nothing but
`run` and the record (D5, log 5) changes is its decision D9 (log 9). -/
def Obligations.FetchBeyondMemoryFaults : Prop :=
  ∀ s : State, s.run = .running → 254 ≤ s.pc.toNat →
    step s = .next { s with
      run := .faulted
      fault := some
        { cause := .addressRange
          opcode := if s.pc.toNat ≤ 255 then some s.opcodeAt else none
          addr := if s.pc.toNat ≤ 255 then 256 else s.pc.toNat } }

/-- 60_exceptions.md R131: each of the 247 illegal opcode bytes raises DecodeError and changes nothing
else. FAULTED and the record are the spec's decision D5, the bound 253 its decision D8. -/
def Obligations.UnknownOpcodeFaults : Prop :=
  ∀ s : State, s.run = .running → s.pc.toNat ≤ 253 → s.opcodeAt ∉ legalOpcodes →
    step s = .next { s with
      run := .faulted
      fault := some { cause := .decodeError, opcode := some s.opcodeAt, addr := s.pc.toNat } }

/-- 60_exceptions.md R133: a register operand above 7 raises RegisterIndexError and changes nothing
else, in every instruction that has one; for ADD and MUL either operand. The spec's decisions D7 and D9;
FAULTED and the record are its D5. -/
def Obligations.BadRegisterIndexFaults : Prop :=
  ∀ (s : State) (a b : Byte), 8 ≤ a.toNat →
    let raised : Byte → State := fun ir => { s with
      run := .faulted
      fault := some { cause := .registerIndex, opcode := some ir, addr := s.pc.toNat } }
    exec (.ldi a b) s = .next (raised 0x82#8) ∧ exec (.prn a) s = .next (raised 0x47#8) ∧
    exec (.add a b) s = .next (raised 0xA0#8) ∧ exec (.add b a) s = .next (raised 0xA0#8) ∧
    exec (.mul a b) s = .next (raised 0xA2#8) ∧ exec (.mul b a) s = .next (raised 0xA2#8) ∧
    exec (.push a) s = .next (raised 0x45#8) ∧ exec (.pop a) s = .next (raised 0x46#8) ∧
    exec (.call a) s = .next (raised 0x50#8)

/-- 40_fetch_decode_dispatch.md R78 and 60_exceptions.md R137: a cycle that faults changes `run` and
`fault` and nothing else. The spec's decision D9; FAULTED and the record are its D5. -/
def Obligations.FaultsArePrecise : Prop :=
  ∀ s t : State, step s = .next t → t.run = .faulted →
    ∃ r, t = { s with run := .faulted, fault := some r }

/-- When exactly a cycle faults: the fetch leaves memory, the opcode is illegal, or a register index is
above 7 (60_exceptions.md R130; the spec's decisions D3, D5, D7, D8), and which cause is recorded, in
the order of R136. -/
def Obligations.FaultExactlyWhenSpecified : Prop :=
  ∀ s t : State, step s = .next t →
    (t.run = .faulted ↔
      254 ≤ s.pc.toNat ∨ s.opcodeAt ∉ legalOpcodes ∨ s.badIndex) ∧
    (∀ r, t.run = .faulted → t.fault = some r →
      r.cause = (if 254 ≤ s.pc.toNat then .addressRange
        else if s.opcodeAt ∉ legalOpcodes then .decodeError else .registerIndex))

/-- 40_fetch_decode_dispatch.md R77: only HLT signals halt, and no cycle follows it. -/
def Obligations.OnlyHltHalts : Prop :=
  (∀ (i : Instr) (s t : State), s.run = .running → exec i s = .next t →
    (t.run = .halted ↔ i = .hlt)) ∧
  (∀ s t : State, step s = .next t → t.run = .halted → s.opcodeAt = 0x01#8) ∧
  (∀ s t : State, s.run = .halted → step s ≠ .next t)

/-! ### Each instruction: it completes, its result, its frame -/

/-- LDI, 41_ldi_prn.md R90, for every register operand 0 to 7 (the stack pointer too). -/
def Obligations.LdiLoadsImmediate : Prop :=
  ∀ (s : State) (a imm : Byte) (r : RegIdx), a.toNat = r.val →
    ∃ t, exec (.ldi a imm) s = .next t ∧ t.readReg r = imm ∧
      (∀ q, q ≠ r → t.readReg q = s.readReg q) ∧ t.pc = s.pc + 3#9 ∧
      SameMemory s t ∧ t.run = s.run ∧ t.fault = s.fault ∧ t.out = s.out

/-- PRN, 41_ldi_prn.md R91, for every register operand 0 to 7. -/
def Obligations.PrnEmitsRegister : Prop :=
  ∀ (s : State) (a : Byte) (r : RegIdx), a.toNat = r.val →
    ∃ t, exec (.prn a) s = .next t ∧ t.out = s.out ++ [s.readReg r] ∧
      (∀ q, t.readReg q = s.readReg q) ∧ t.pc = s.pc + 2#9 ∧
      SameMemory s t ∧ t.run = s.run ∧ t.fault = s.fault

/-- ADD, 42_alu.md R101, for every pair of register operands, equal ones and the stack pointer too. -/
def Obligations.AddIsModulo256 : Prop :=
  ∀ (s : State) (a b : Byte) (ra rb : RegIdx), a.toNat = ra.val → b.toNat = rb.val →
    ∃ t, exec (.add a b) s = .next t ∧
      (t.readReg ra).toNat = ((s.readReg ra).toNat + (s.readReg rb).toNat) % 256 ∧
      (∀ q, q ≠ ra → t.readReg q = s.readReg q) ∧ t.pc = s.pc + 3#9 ∧
      SameMemory s t ∧ t.run = s.run ∧ t.fault = s.fault ∧ t.out = s.out

/-- MUL, 42_alu.md R102, for every pair of register operands. -/
def Obligations.MulIsModulo256 : Prop :=
  ∀ (s : State) (a b : Byte) (ra rb : RegIdx), a.toNat = ra.val → b.toNat = rb.val →
    ∃ t, exec (.mul a b) s = .next t ∧
      (t.readReg ra).toNat = ((s.readReg ra).toNat * (s.readReg rb).toNat) % 256 ∧
      (∀ q, q ≠ ra → t.readReg q = s.readReg q) ∧ t.pc = s.pc + 3#9 ∧
      SameMemory s t ∧ t.run = s.run ∧ t.fault = s.fault ∧ t.out = s.out

/-- HLT, 43_halt.md R110. That `pc` advances by one is the spec's decision D16. -/
def Obligations.HltAdvancesThenHalts : Prop :=
  ∀ s : State, ∃ t, exec .hlt s = .next t ∧ t.run = .halted ∧ t.pc = s.pc + 1#9 ∧
    (∀ q, t.readReg q = s.readReg q) ∧ SameMemory s t ∧ t.fault = s.fault ∧ t.out = s.out

/-- PUSH, 44_stack.md R116: the address stored to is the decremented stack pointer, and the byte stored
is the register read after the decrement (the spec's decision D15 for register 7). -/
def Obligations.PushStoresBelowStack : Prop :=
  ∀ (s : State) (a : Byte) (r : RegIdx), a.toNat = r.val → Memory.wf s.mem = true →
    ∃ t, exec (.push a) s = .next t ∧
      (t.sp.toNat : Int) = ((s.sp.toNat : Int) - 1) % 256 ∧ t.sp = s.decSp.sp ∧
      (∀ q, q ≠ 7 → t.readReg q = s.readReg q) ∧
      Memory.read t.mem s.decSp.sp.toNat = (if r = 7 then s.decSp.sp else s.readReg r) ∧
      (∀ addr, addr ≠ s.decSp.sp.toNat → Memory.read t.mem addr = Memory.read s.mem addr) ∧
      t.pc = s.pc + 2#9 ∧ t.run = s.run ∧ t.fault = s.fault ∧ t.out = s.out

/-- POP, 44_stack.md R117: the byte at the stack pointer goes to the register, then the stack pointer,
read after that write, goes up (the spec's decision D15 for register 7). The cell keeps its byte. -/
def Obligations.PopLoadsStackTop : Prop :=
  ∀ (s : State) (a : Byte) (r : RegIdx), a.toNat = r.val →
    ∃ t, exec (.pop a) s = .next t ∧
      (r ≠ 7 → t.readReg r = Memory.read s.mem s.sp.toNat ∧ t.sp.toNat = (s.sp.toNat + 1) % 256) ∧
      (r = 7 → t.sp.toNat = ((Memory.read s.mem s.sp.toNat).toNat + 1) % 256) ∧
      (∀ q, q ≠ r → q ≠ 7 → t.readReg q = s.readReg q) ∧ t.pc = s.pc + 2#9 ∧
      SameMemory s t ∧ t.run = s.run ∧ t.fault = s.fault ∧ t.out = s.out

/-- CALL, 45_subroutine.md R120: `pc + 2` is pushed and `pc` becomes the register read after the push
(the spec's decision D15 for register 7). The bound 253, from R74, is the spec's decision D8. -/
def Obligations.CallPushesReturnAddress : Prop :=
  ∀ (s : State) (a : Byte) (r : RegIdx), a.toNat = r.val → s.pc.toNat ≤ 253 →
    Memory.wf s.mem = true →
    ∃ t, exec (.call a) s = .next t ∧
      (t.sp.toNat : Int) = ((s.sp.toNat : Int) - 1) % 256 ∧ t.sp = s.decSp.sp ∧
      (∀ q, q ≠ 7 → t.readReg q = s.readReg q) ∧
      (Memory.read t.mem s.decSp.sp.toNat).toNat = s.pc.toNat + 2 ∧
      (∀ addr, addr ≠ s.decSp.sp.toNat → Memory.read t.mem addr = Memory.read s.mem addr) ∧
      t.pc.toNat = (if r = 7 then s.decSp.sp else s.readReg r).toNat ∧
      t.run = s.run ∧ t.fault = s.fault ∧ t.out = s.out

/-- RET, 45_subroutine.md R121. -/
def Obligations.RetPopsProgramCounter : Prop :=
  ∀ s : State, ∃ t, exec .ret s = .next t ∧
    t.pc.toNat = (Memory.read s.mem s.sp.toNat).toNat ∧ t.sp.toNat = (s.sp.toNat + 1) % 256 ∧
    (∀ q, q ≠ 7 → t.readReg q = s.readReg q) ∧ SameMemory s t ∧
    t.run = s.run ∧ t.fault = s.fault ∧ t.out = s.out

/-! ### Shared operations -/

/-- 10_state.md R12: a register write stores `v mod 256`, and every writer goes through that path: LDI,
ADD, MUL, POP and the stack-pointer updates of PUSH, POP, CALL and RET, each a write of the exact,
unreduced value. What POP's second write reads when its operand is register 7 is the spec's decision
D15 (log 15). -/
def Obligations.RegisterWritesAreMasked : Prop :=
  (∀ (s : State) (r : RegIdx) (v : Int), (((s.writeReg r v).readReg r).toNat : Int) = v % 256) ∧
  (∀ (s : State) (a imm : Byte) (ra : RegIdx), a.toNat = ra.val →
    ∃ t, exec (.ldi a imm) s = .next t ∧ t.x = (s.writeReg ra imm.toNat).x) ∧
  (∀ (s : State) (a b : Byte) (ra rb : RegIdx), a.toNat = ra.val → b.toNat = rb.val →
    (∃ t, exec (.add a b) s = .next t ∧
      t.x = (s.writeReg ra (((s.readReg ra).toNat : Int) + ((s.readReg rb).toNat : Int))).x) ∧
    (∃ t, exec (.mul a b) s = .next t ∧
      t.x = (s.writeReg ra (((s.readReg ra).toNat : Int) * ((s.readReg rb).toNat : Int))).x) ∧
    (∃ t, exec (.pop a) s = .next t ∧
      t.x = ((s.writeReg ra (Memory.read s.mem s.sp.toNat).toNat).writeReg 7
        (((if ra = 7 then Memory.read s.mem s.sp.toNat else s.sp).toNat : Int) + 1)).x) ∧
    (∃ t, exec (.push a) s = .next t ∧ t.x = (s.writeReg 7 ((s.sp.toNat : Int) - 1)).x) ∧
    (∃ t, exec (.call a) s = .next t ∧ t.x = (s.writeReg 7 ((s.sp.toNat : Int) - 1)).x) ∧
    (∃ t, exec .ret s = .next t ∧ t.x = (s.writeReg 7 ((s.sp.toNat : Int) + 1)).x))

/-- 42_alu.md R100: the arithmetic unit's contract. -/
def Obligations.AluContract : Prop :=
  ∀ u v : Byte, (alu .add u v).toNat = (u.toNat + v.toNat) % 256 ∧
    (alu .mul u v).toNat = (u.toNat * v.toNat) % 256

/-- 44_stack.md R115: push decrements then writes; pop reads then increments and does not erase. -/
def Obligations.StackPrimitives : Prop :=
  ∀ (s : State) (v : Byte), Memory.wf s.mem = true →
    (((s.stackPush v).sp.toNat : Int) = ((s.sp.toNat : Int) - 1) % 256 ∧
      Memory.read (s.stackPush v).mem (s.stackPush v).sp.toNat = v ∧
      (∀ addr, addr ≠ (s.stackPush v).sp.toNat →
        Memory.read (s.stackPush v).mem addr = Memory.read s.mem addr) ∧
      (∀ q, q ≠ 7 → (s.stackPush v).readReg q = s.readReg q) ∧
      (s.stackPush v).pc = s.pc ∧ (s.stackPush v).run = s.run ∧
      (s.stackPush v).fault = s.fault ∧ (s.stackPush v).out = s.out) ∧
    (s.stackPop.1 = Memory.read s.mem s.sp.toNat ∧
      s.stackPop.2.sp.toNat = (s.sp.toNat + 1) % 256 ∧ SameMemory s s.stackPop.2 ∧
      (∀ q, q ≠ 7 → s.stackPop.2.readReg q = s.readReg q) ∧
      s.stackPop.2.pc = s.pc ∧ s.stackPop.2.run = s.run ∧
      s.stackPop.2.fault = s.fault ∧ s.stackPop.2.out = s.out)

/-- The canonical form is canonical: two memories that read alike everywhere are equal data (the
model's form of memory; 20_memory.md R30 gives the cells). -/
def Obligations.CanonicalMemoryUnique : Prop :=
  ∀ m m' : Memory, Memory.wf m = true → Memory.wf m' = true →
    (∀ addr, addr < 256 → Memory.read m addr = Memory.read m' addr) → m = m'

/-! ### Whole-machine rules -/

/-- 10_state.md R20: `out` starts empty, each executed PRN appends exactly one byte, nothing else appends
and nothing removes, a fault leaves it, and no instruction reads it. -/
def Obligations.OutputGrowsOnlyByPrn : Prop :=
  State.reset.out = [] ∧
  (∀ (s t : State) (r : RegIdx), step s = .next t → t.run ≠ .faulted → s.opcodeAt = 0x47#8 →
    s.slotA.toNat = r.val → t.out = s.out ++ [s.readReg r]) ∧
  (∀ s t : State, step s = .next t → s.opcodeAt ≠ 0x47#8 ∨ t.run = .faulted → t.out = s.out) ∧
  (∀ (s t : State) (o : List Byte), step s = .next t →
    ∃ o', step { s with out := o } = .next { t with out := o' })

/-- No cycle reads `out` or the fault record (10_state.md R18, R20): whatever they hold, the step does
the same to everything else and appends the same values. The record is the spec's decision D5. -/
def Obligations.OutputAndRecordNeverRead : Prop :=
  ∀ (s t : State) (o : List Byte) (f : Option FaultRecord), step s = .next t →
    ∃ t' new, step { s with out := o, fault := f } = .next t' ∧
      t'.x = t.x ∧ t'.pc = t.pc ∧ t'.mem = t.mem ∧ t'.run = t.run ∧
      t.out = s.out ++ new ∧ t'.out = o ++ new ∧
      (t.run = .faulted → t'.fault = t.fault) ∧
      (t.run ≠ .faulted → t.fault = s.fault ∧ t'.fault = f)

/-- Who writes a register, 10_state.md R10: LDI, ADD, MUL, POP their operand a; PUSH, POP, CALL, RET
register 7; nothing else any. -/
def Obligations.RegistersWrittenOnlyAsListed : Prop :=
  ∀ (s t : State) (r : RegIdx), step s = .next t → t.readReg r ≠ s.readReg r →
    (s.opcodeAt ∈ [0x82#8, 0xA0#8, 0xA2#8, 0x46#8] ∧ s.slotA.toNat = r.val) ∨
    (s.opcodeAt ∈ [0x45#8, 0x46#8, 0x50#8, 0x11#8] ∧ r = 7)

/-- Who writes memory, 20_memory.md R32: PUSH and CALL, one byte at the decremented stack pointer;
nothing else any byte. -/
def Obligations.MemoryWrittenOnlyByPushCall : Prop :=
  ∀ (s t : State) (addr : Nat), Memory.wf s.mem = true → step s = .next t →
    Memory.read t.mem addr ≠ Memory.read s.mem addr →
    s.opcodeAt ∈ [0x45#8, 0x50#8] ∧ addr = s.decSp.sp.toNat ∧
    (s.decSp.sp.toNat : Int) = ((s.sp.toNat : Int) - 1) % 256

/-- 45_subroutine.md R122: CALL and RET are the only control transfers, their targets absolute byte
addresses from CALL's register and RET's stack byte; all others fall through to `pc + n + 1`. HLT's
advance is the spec's decision D16, CALL through register 7 its decision D15. -/
def Obligations.OnlyCallRetTransferControl : Prop :=
  ∀ (i : Instr) (s t : State), exec i s = .next t → t.run ≠ .faulted →
    ((∀ a, i ≠ .call a) → i ≠ .ret →
      t.pc = s.pc + BitVec.ofNat 9 (operandCount (opcodeOf i) + 1)) ∧
    (∀ a, i = .call a → ∃ r : RegIdx, a.toNat = r.val ∧ t.pc.toNat = (t.readReg r).toNat) ∧
    (i = .ret → t.pc.toNat = (Memory.read s.mem s.sp.toNat).toNat) ∧
    ((∃ a, i = .call a) ∨ i = .ret → t.pc.toNat ≤ 255)

/-- 44_stack.md R119, the round trip: PUSH Ra then POP Ra leaves every register as it was, for every
register operand and every stack pointer, unless the store overwrites the POP. The byte pushed for
register 7 is the spec's decision D15, the bound 251 its decision D8. -/
def Obligations.PushPopRoundTrip : Prop :=
  ∀ (s : State) (r : RegIdx), Memory.wf s.mem = true → s.run = .running → s.pc.toNat ≤ 251 →
    s.opcodeAt = 0x45#8 → s.slotA.toNat = r.val → s.slotB = 0x46#8 →
    Memory.read s.mem (s.pc.toNat + 3) = s.slotA →
    s.decSp.sp.toNat ≠ s.pc.toNat + 2 → s.decSp.sp.toNat ≠ s.pc.toNat + 3 →
    ∃ u t, step s = .next u ∧ step u = .next t ∧ (∀ q, t.readReg q = s.readReg q) ∧
      Memory.read t.mem s.decSp.sp.toNat = (if r = 7 then s.decSp.sp else s.readReg r) ∧
      (∀ addr, addr ≠ s.decSp.sp.toNat → Memory.read t.mem addr = Memory.read s.mem addr) ∧
      t.pc.toNat = s.pc.toNat + 4 ∧ t.run = .running ∧ t.fault = s.fault ∧ t.out = s.out

/-- 45_subroutine.md R124: after a CALL, a RET that finds the stack pointer and the cell with the return
address as CALL left them resumes at the CALL's `pc + 2` and restores the stack pointer. The bound 253
is the spec's decision D8. -/
def Obligations.CallThenRetResumes : Prop :=
  ∀ (s : State) (r : RegIdx), Memory.wf s.mem = true → s.run = .running → s.pc.toNat ≤ 253 →
    s.opcodeAt = 0x50#8 → s.slotA.toNat = r.val →
    ∃ t, step s = .next t ∧ ∀ u : State, u.run = .running → u.pc.toNat ≤ 253 →
      u.opcodeAt = 0x11#8 → u.sp = t.sp →
      Memory.read u.mem t.sp.toNat = Memory.read t.mem t.sp.toNat →
      ∃ v, step u = .next v ∧ v.pc.toNat = s.pc.toNat + 2 ∧ v.sp = s.sp

/-- 45_subroutine.md R121, corner case: PUSH Ra then RET is a jump to the address in Ra that leaves the
stack pointer where it was, unless the store overwrites the RET. For register 7 the target is the
spec's decision D15; the bound 251 is its decision D8. -/
def Obligations.PushThenRetJumps : Prop :=
  ∀ (s : State) (r : RegIdx), Memory.wf s.mem = true → s.run = .running → s.pc.toNat ≤ 251 →
    s.opcodeAt = 0x45#8 → s.slotA.toNat = r.val → s.slotB = 0x11#8 →
    s.decSp.sp.toNat ≠ s.pc.toNat + 2 →
    ∃ u t, step s = .next u ∧ step u = .next t ∧ (∀ q, t.readReg q = s.readReg q) ∧
      t.pc.toNat = (if r = 7 then s.decSp.sp else s.readReg r).toNat

/-- 20_memory.md R42: a byte that PUSH or CALL stores is what the very next cycle fetches there, as the
opcode or as an operand. The byte PUSH stores from register 7 is the spec's decision D15 (log 15), the
bound 253 its decision D8 (log 8). -/
def Obligations.StoredBytesAreFetchedNext : Prop :=
  ∀ (s t : State) (r : RegIdx) (v : Byte), Memory.wf s.mem = true → step s = .next t →
    t.run = .running → s.slotA.toNat = r.val →
    (s.opcodeAt = 0x45#8 ∧ v = s.decSp.readReg r) ∨ (s.opcodeAt = 0x50#8 ∧ v = s.returnAddress) →
    t.pc.toNat ≤ 253 →
    ∃ f, fetch t = .ok f ∧ (t.pc.toNat = t.sp.toNat → f.ir = v) ∧
      (t.pc.toNat + 1 = t.sp.toNat → f.a = v) ∧ (t.pc.toNat + 2 = t.sp.toNat → f.b = v)

/-- 41_ldi_prn.md R92: an output value is rendered as its decimal numeral, no leading zero, no sign, no
padding, then one LF; the rendered output is the lines in order and nothing else, an empty output
rendering as nothing (the spec's decision D11). -/
def Obligations.OutputRendersAsDecimalLines : Prop :=
  (∀ v : Byte, ∃ digits : List Char, renderByte v = digits ++ ['\n'] ∧ digits ≠ [] ∧
    (∀ c ∈ digits, c.isDigit = true) ∧
    digits.foldl (fun n c => 10 * n + (c.toNat - 48)) 0 = v.toNat ∧
    (digits.head? = some '0' → digits = ['0'])) ∧
  (∀ s : State, s.out = [] → s.rendered = []) ∧
  (∀ (s : State) (v : Byte), (s.output v).rendered = s.rendered ++ renderByte v)

/-- 60_exceptions.md R148: a run ended by HLT shows status zero, one ended by a fault non-zero, a run
that has not ended none (the spec's decision D10). -/
def Obligations.ExitStatusOfRun : Prop :=
  ∀ s : State, (s.exitStatus = some .zero ↔ s.run = .halted) ∧
    (s.exitStatus = some .nonZero ↔ s.run = .faulted) ∧ (s.exitStatus = none ↔ s.run = .running)
end

