-- ==== Sys2Proof/Laws/Decode.lean ====
section
/-! SUPPORT. The decoder said once: what it accepts, with which opcode byte and operands. -/

namespace Sys2Proof.Machine

/-! The operand count of each of the nine opcode bytes (30_encoding.md R53, R61). -/

@[simp] theorem operandCount_opLdi : operandCount opLdi = 2 := by decide
@[simp] theorem operandCount_opPrn : operandCount opPrn = 1 := by decide
@[simp] theorem operandCount_opAdd : operandCount opAdd = 2 := by decide
@[simp] theorem operandCount_opMul : operandCount opMul = 2 := by decide
@[simp] theorem operandCount_opHlt : operandCount opHlt = 0 := by decide
@[simp] theorem operandCount_opPush : operandCount opPush = 1 := by decide
@[simp] theorem operandCount_opPop : operandCount opPop = 1 := by decide
@[simp] theorem operandCount_opCall : operandCount opCall = 1 := by decide
@[simp] theorem operandCount_opRet : operandCount opRet = 0 := by decide

/-- The operand bytes an instruction takes from the two slots. -/
def slotsOf : Instr → Byte → Byte → Prop
  | .ldi a imm, sa, sb => a = sa ∧ imm = sb
  | .prn a, sa, _ => a = sa
  | .add a b, sa, sb => a = sa ∧ b = sb
  | .mul a b, sa, sb => a = sa ∧ b = sb
  | .hlt, _, _ => True
  | .push a, sa, _ => a = sa
  | .pop a, sa, _ => a = sa
  | .call a, sa, _ => a = sa
  | .ret, _, _ => True

/-- The decoder reads an instruction exactly when the opcode byte is its own and its operands stand in
the slots. -/
theorem decode_eq_ok_iff (ir a b : Byte) (i : Instr) :
    decode ir a b = .ok i ↔ ir = opcodeOf i ∧ slotsOf i a b := by
  constructor
  · intro h
    unfold decode at h
    repeat' split at h
    all_goals first
      | (cases h; exact ⟨‹_›, by simp [slotsOf]⟩)
      | cases h
  · rintro ⟨rfl, h⟩
    cases i with
    | ldi x y => obtain ⟨rfl, rfl⟩ := h; rfl
    | prn x => obtain rfl := h; rfl
    | add x y => obtain ⟨rfl, rfl⟩ := h; rfl
    | mul x y => obtain ⟨rfl, rfl⟩ := h; rfl
    | hlt => rfl
    | push x => obtain rfl := h; rfl
    | pop x => obtain rfl := h; rfl
    | call x => obtain rfl := h; rfl
    | ret => rfl

/-- The opcode byte of every instruction is one of the nine. -/
theorem opcodeOf_mem_legal (i : Instr) : opcodeOf i ∈ legalOpcodes := by
  cases i <;> (simp only [opcodeOf]; decide)

/-- The decoder rejects exactly the opcode bytes outside the nine, by name. -/
theorem decode_eq_error_iff (ir a b : Byte) :
    (∃ e, decode ir a b = .error e) ↔ ir ∉ legalOpcodes := by
  constructor
  · rintro ⟨e, he⟩ hmem
    simp only [legalOpcodes, List.mem_cons, List.not_mem_nil, or_false] at hmem
    rcases hmem with rfl | rfl | rfl | rfl | rfl | rfl | rfl | rfl | rfl <;> cases he
  · intro h
    cases hd : decode ir a b with
    | error e => exact ⟨e, rfl⟩
    | ok i => exact absurd ((decode_eq_ok_iff ir a b i).mp hd).1 (fun e => h (e ▸ opcodeOf_mem_legal i))

/-- A rejection of three bytes names the opcode byte. -/
theorem decode_error_names {ir a b : Byte} {e : DecodeReject} (h : decode ir a b = .error e) :
    e = .unknownOpcode ir := by
  unfold decode at h
  repeat' split at h
  all_goals cases h
  rfl

end Sys2Proof.Machine
end

