-- ==== Sys2Proof/Laws/Memory.lean ====
section
/-! SUPPORT. Memory: read after write, and that every memory operation keeps the canonical form. -/

namespace Sys2Proof.Machine

/-- Below the bound a canonical memory lists nothing. -/
theorem Memory.read_eq_fill_of_lt {lo : Nat} {m : Memory} (h : Memory.wfFrom lo m = true)
    {addr : Nat} (hlt : addr < lo) : Memory.read m addr = Config.memFill := by
  induction m generalizing lo with
  | nil => rfl
  | cons c m ih =>
    obtain ⟨k, w⟩ := c
    simp only [Memory.wfFrom, Bool.and_eq_true, decide_eq_true_eq] at h
    obtain ⟨⟨⟨hlo, -⟩, -⟩, hm⟩ := h
    have hk : k ≠ addr := by omega
    simp [Memory.read, hk, ih hm (by omega)]

/-- Above the last address a canonical memory lists nothing. -/
theorem Memory.read_eq_fill_of_ge {lo : Nat} {m : Memory} (h : Memory.wfFrom lo m = true)
    {addr : Nat} (hge : Config.memCells ≤ addr) : Memory.read m addr = Config.memFill := by
  induction m generalizing lo with
  | nil => rfl
  | cons c m ih =>
    obtain ⟨k, w⟩ := c
    simp only [Memory.wfFrom, Bool.and_eq_true, decide_eq_true_eq] at h
    obtain ⟨⟨⟨-, hk⟩, -⟩, hm⟩ := h
    have hk : k ≠ addr := by omega
    simp [Memory.read, hk, ih hm]

theorem Memory.wfFrom_mono {lo lo' : Nat} {m : Memory} (hle : lo' ≤ lo)
    (h : Memory.wfFrom lo m = true) : Memory.wfFrom lo' m = true := by
  cases m with
  | nil => rfl
  | cons c m =>
    simp only [Memory.wfFrom, Bool.and_eq_true, decide_eq_true_eq] at h ⊢
    exact ⟨⟨⟨by omega, h.1.1.2⟩, h.1.2⟩, h.2⟩

/-- Read after write: the byte written, and every other address as before (20_memory.md R39). -/
theorem Memory.read_writeFrom {lo : Nat} {m : Memory} (h : Memory.wfFrom lo m = true)
    (addr : Nat) (v : Byte) (b : Nat) :
    Memory.read (Memory.write m addr v) b = if addr = b then v else Memory.read m b := by
  induction m generalizing lo with
  | nil =>
    by_cases hv : v = Config.memFill <;> simp [Memory.write, Memory.read, hv]
  | cons c m ih =>
    obtain ⟨k, w⟩ := c
    simp only [Memory.wfFrom, Bool.and_eq_true, decide_eq_true_eq] at h
    obtain ⟨⟨⟨hlo, hk⟩, hw⟩, hm⟩ := h
    simp only [Memory.write]
    by_cases hlt : addr < k
    · by_cases hv : v = Config.memFill
      · by_cases hb : addr = b
        · subst hb
          have hne : k ≠ addr := by omega
          simp [hlt, hv, Memory.read, hne, Memory.read_eq_fill_of_lt hm (by omega : addr < k + 1)]
        · simp [hlt, hv, hb]
      · simp [hlt, hv, Memory.read]
    · by_cases heq : addr = k
      · subst heq
        by_cases hv : v = Config.memFill
        · by_cases hb : addr = b
          · subst hb
            simp [hv, Memory.read_eq_fill_of_lt hm (by omega : addr < addr + 1)]
          · simp [hv, hb, Memory.read]
        · by_cases hb : addr = b <;> simp [hv, hb, Memory.read]
      · simp only [if_neg hlt, if_neg heq, Memory.read, ih hm]
        by_cases hb : addr = b
        · subst hb
          have hne : k ≠ addr := fun e => heq e.symm
          simp [hne]
        · simp [hb]

/-- Read after write in a canonical memory. -/
theorem Memory.read_write {m : Memory} (h : Memory.wf m = true) (addr : Nat) (v : Byte) (b : Nat) :
    Memory.read (Memory.write m addr v) b = if addr = b then v else Memory.read m b :=
  Memory.read_writeFrom h addr v b

theorem Memory.wfFrom_write {lo : Nat} {m : Memory} (h : Memory.wfFrom lo m = true)
    {addr : Nat} (hlo : lo ≤ addr) (hin : addr < Config.memCells) (v : Byte) :
    Memory.wfFrom lo (Memory.write m addr v) = true := by
  induction m generalizing lo with
  | nil =>
    by_cases hv : v = Config.memFill <;> simp [Memory.write, Memory.wfFrom, hv, hlo, hin]
  | cons c m ih =>
    obtain ⟨k, w⟩ := c
    have h' := h
    simp only [Memory.wfFrom, Bool.and_eq_true, decide_eq_true_eq] at h
    obtain ⟨⟨⟨hlok, hk⟩, hw⟩, hm⟩ := h
    simp only [Memory.write]
    by_cases hlt : addr < k
    · by_cases hv : v = Config.memFill
      · simpa [hlt, hv] using h'
      · simp [hlt, hv, Memory.wfFrom, hlo, hin, hw, hm, hk]
    · by_cases heq : addr = k
      · subst heq
        by_cases hv : v = Config.memFill
        · simpa [hv] using Memory.wfFrom_mono (by omega : lo ≤ addr + 1) hm
        · simp [hv, Memory.wfFrom, hlo, hin, hm]
      · simp [hlt, heq, Memory.wfFrom, hlok, hk, hw, ih hm (by omega : k + 1 ≤ addr)]

/-- A write at an address that exists keeps the canonical form. -/
theorem Memory.wf_write {m : Memory} (h : Memory.wf m = true) {addr : Nat}
    (hin : addr < Config.memCells) (v : Byte) : Memory.wf (Memory.write m addr v) = true :=
  Memory.wfFrom_write h (Nat.zero_le _) hin v

/-- Memory after reset is canonical. -/
theorem State.reset_mem_wf : Memory.wf State.reset.mem = true := rfl

/-- A range-checked write keeps the canonical form. -/
theorem State.memWrite?_wf {s t : State} {addr : Nat} {v : Byte} (h : Memory.wf s.mem = true)
    (ht : s.memWrite? addr v = some t) : Memory.wf t.mem = true := by
  unfold State.memWrite? at ht
  split at ht
  · cases ht; exact Memory.wf_write h ‹_› v
  · cases ht

/-- A store keeps the canonical form. -/
theorem State.store_wf {s : State} (h : Memory.wf s.mem = true) (addr v : Byte) :
    Memory.wf (s.store addr v).mem = true :=
  Memory.wf_write h addr.isLt v

/-- A push keeps the canonical form. -/
theorem State.stackPush_wf {s : State} (h : Memory.wf s.mem = true) (v : Byte) :
    Memory.wf (s.stackPush v).mem = true :=
  Memory.wf_write h s.decSp.sp.isLt v

/-- What a read sees of a push. -/
theorem State.read_stackPush {s : State} (h : Memory.wf s.mem = true) (v : Byte) (addr : Nat) :
    Memory.read (s.stackPush v).mem addr =
      if s.decSp.sp.toNat = addr then v else Memory.read s.mem addr :=
  Memory.read_write h _ _ _

/-- Placing bytes changes memory alone. -/
theorem State.placeBytes_fields (s : State) (addr : Nat) (vs : List Byte) :
    (s.placeBytes addr vs).x = s.x ∧ (s.placeBytes addr vs).pc = s.pc ∧
    (s.placeBytes addr vs).run = s.run ∧ (s.placeBytes addr vs).fault = s.fault ∧
    (s.placeBytes addr vs).out = s.out := by
  induction vs generalizing s addr with
  | nil => simp [State.placeBytes]
  | cons v vs ih =>
    obtain ⟨h1, h2, h3, h4, h5⟩ := ih ((s.memWrite? addr v).getD s) (addr + 1)
    simp only [State.placeBytes, h1, h2, h3, h4, h5]
    unfold State.memWrite?
    split <;> simp

/-- Placing bytes keeps the canonical form. -/
theorem State.placeBytes_wf {s : State} (h : Memory.wf s.mem = true) (addr : Nat) (vs : List Byte) :
    Memory.wf (s.placeBytes addr vs).mem = true := by
  induction vs generalizing s addr with
  | nil => exact h
  | cons v vs ih =>
    apply ih
    cases hw : s.memWrite? addr v with
    | none => exact h
    | some t => exact State.memWrite?_wf h hw

/-- What a read sees of placed bytes: inside the range the byte placed, outside it what stood there. -/
theorem State.read_placeBytes {s : State} (h : Memory.wf s.mem = true) (addr : Nat) (vs : List Byte)
    (hfit : addr + vs.length ≤ Config.memCells) (b : Nat) :
    Memory.read (s.placeBytes addr vs).mem b =
      if addr ≤ b ∧ b < addr + vs.length then vs.getD (b - addr) 0#8 else Memory.read s.mem b := by
  induction vs generalizing s addr with
  | nil => simp only [State.placeBytes, List.length_nil]; rw [if_neg (by omega)]
  | cons v vs ih =>
    simp only [List.length_cons] at hfit ⊢
    have hin : addr < Config.memCells := by omega
    have hwf := Memory.wf_write h hin v
    simp only [State.placeBytes, State.memWrite?, if_pos hin, Option.getD_some]
    rw [ih (s := { s with mem := Memory.write s.mem addr v }) hwf (addr + 1) (by omega)]
    simp only [Memory.read_write h]
    by_cases hb : addr = b
    · subst hb
      rw [if_neg (by omega), if_pos (by omega)]; simp
    · by_cases hr : addr + 1 ≤ b ∧ b < addr + 1 + vs.length
      · rw [if_pos hr, if_pos (by omega)]
        obtain ⟨d, rfl⟩ : ∃ d, b = addr + 1 + d := ⟨b - (addr + 1), by omega⟩
        have e1 : addr + 1 + d - (addr + 1) = d := by omega
        have e2 : addr + 1 + d - addr = d + 1 := by omega
        rw [e1, e2, List.getD_cons_succ]
      · rw [if_neg hr, if_neg hb, if_neg (by omega)]

end Sys2Proof.Machine
end

