-- ==== Sys2Proof/Laws/State.lean ====
section
/-! SUPPORT. Beside the state: one lemma per field per update, so that no proof unfolds a record
update, and what a register read sees of each update. -/

namespace Sys2Proof.Machine

variable (s : State)

@[simp] theorem State.writeReg_pc (i : RegIdx) (v : Int) : (s.writeReg i v).pc = s.pc := rfl
@[simp] theorem State.writeReg_mem (i : RegIdx) (v : Int) : (s.writeReg i v).mem = s.mem := rfl
@[simp] theorem State.writeReg_run (i : RegIdx) (v : Int) : (s.writeReg i v).run = s.run := rfl
@[simp] theorem State.writeReg_fault (i : RegIdx) (v : Int) :
    (s.writeReg i v).fault = s.fault := rfl
@[simp] theorem State.writeReg_out (i : RegIdx) (v : Int) : (s.writeReg i v).out = s.out := rfl

@[simp] theorem State.store_x (addr v : Byte) : (s.store addr v).x = s.x := rfl
@[simp] theorem State.store_pc (addr v : Byte) : (s.store addr v).pc = s.pc := rfl
@[simp] theorem State.store_mem (addr v : Byte) :
    (s.store addr v).mem = Memory.write s.mem addr.toNat v := rfl
@[simp] theorem State.store_run (addr v : Byte) : (s.store addr v).run = s.run := rfl
@[simp] theorem State.store_fault (addr v : Byte) : (s.store addr v).fault = s.fault := rfl
@[simp] theorem State.store_out (addr v : Byte) : (s.store addr v).out = s.out := rfl

@[simp] theorem State.decSp_pc : (s.decSp).pc = s.pc := rfl
@[simp] theorem State.decSp_mem : (s.decSp).mem = s.mem := rfl
@[simp] theorem State.decSp_run : (s.decSp).run = s.run := rfl
@[simp] theorem State.decSp_fault : (s.decSp).fault = s.fault := rfl
@[simp] theorem State.decSp_out : (s.decSp).out = s.out := rfl

@[simp] theorem State.incSp_pc : (s.incSp).pc = s.pc := rfl
@[simp] theorem State.incSp_mem : (s.incSp).mem = s.mem := rfl
@[simp] theorem State.incSp_run : (s.incSp).run = s.run := rfl
@[simp] theorem State.incSp_fault : (s.incSp).fault = s.fault := rfl
@[simp] theorem State.incSp_out : (s.incSp).out = s.out := rfl

@[simp] theorem State.stackPush_x (v : Byte) : (s.stackPush v).x = s.decSp.x := rfl
@[simp] theorem State.stackPush_pc (v : Byte) : (s.stackPush v).pc = s.pc := rfl
@[simp] theorem State.stackPush_mem (v : Byte) :
    (s.stackPush v).mem = Memory.write s.mem s.decSp.sp.toNat v := rfl
@[simp] theorem State.stackPush_run (v : Byte) : (s.stackPush v).run = s.run := rfl
@[simp] theorem State.stackPush_fault (v : Byte) : (s.stackPush v).fault = s.fault := rfl
@[simp] theorem State.stackPush_out (v : Byte) : (s.stackPush v).out = s.out := rfl

@[simp] theorem State.setPc_x (v : Pc) : (s.setPc v).x = s.x := rfl
@[simp] theorem State.setPc_pc (v : Pc) : (s.setPc v).pc = v := rfl
@[simp] theorem State.setPc_mem (v : Pc) : (s.setPc v).mem = s.mem := rfl
@[simp] theorem State.setPc_run (v : Pc) : (s.setPc v).run = s.run := rfl
@[simp] theorem State.setPc_fault (v : Pc) : (s.setPc v).fault = s.fault := rfl
@[simp] theorem State.setPc_out (v : Pc) : (s.setPc v).out = s.out := rfl

@[simp] theorem State.advance_x (ir : Byte) : (s.advance ir).x = s.x := rfl
@[simp] theorem State.advance_pc (ir : Byte) : (s.advance ir).pc = s.pc + naturalAdvance ir := rfl
@[simp] theorem State.advance_mem (ir : Byte) : (s.advance ir).mem = s.mem := rfl
@[simp] theorem State.advance_run (ir : Byte) : (s.advance ir).run = s.run := rfl
@[simp] theorem State.advance_fault (ir : Byte) : (s.advance ir).fault = s.fault := rfl
@[simp] theorem State.advance_out (ir : Byte) : (s.advance ir).out = s.out := rfl

@[simp] theorem State.output_x (v : Byte) : (s.output v).x = s.x := rfl
@[simp] theorem State.output_pc (v : Byte) : (s.output v).pc = s.pc := rfl
@[simp] theorem State.output_mem (v : Byte) : (s.output v).mem = s.mem := rfl
@[simp] theorem State.output_run (v : Byte) : (s.output v).run = s.run := rfl
@[simp] theorem State.output_fault (v : Byte) : (s.output v).fault = s.fault := rfl
@[simp] theorem State.output_out (v : Byte) : (s.output v).out = s.out ++ [v] := rfl

@[simp] theorem State.halt_x : (s.halt).x = s.x := rfl
@[simp] theorem State.halt_pc : (s.halt).pc = s.pc := rfl
@[simp] theorem State.halt_mem : (s.halt).mem = s.mem := rfl
@[simp] theorem State.halt_run : (s.halt).run = .halted := rfl
@[simp] theorem State.halt_fault : (s.halt).fault = s.fault := rfl
@[simp] theorem State.halt_out : (s.halt).out = s.out := rfl

@[simp] theorem State.raise_x (c : Cause) (op : Option Byte) (addr : Nat) :
    (s.raise c op addr).x = s.x := rfl
@[simp] theorem State.raise_pc (c : Cause) (op : Option Byte) (addr : Nat) :
    (s.raise c op addr).pc = s.pc := rfl
@[simp] theorem State.raise_mem (c : Cause) (op : Option Byte) (addr : Nat) :
    (s.raise c op addr).mem = s.mem := rfl
@[simp] theorem State.raise_run (c : Cause) (op : Option Byte) (addr : Nat) :
    (s.raise c op addr).run = .faulted := rfl
@[simp] theorem State.raise_fault (c : Cause) (op : Option Byte) (addr : Nat) :
    (s.raise c op addr).fault = some { cause := c, opcode := op, addr := addr } := rfl
@[simp] theorem State.raise_out (c : Cause) (op : Option Byte) (addr : Nat) :
    (s.raise c op addr).out = s.out := rfl

@[simp] theorem State.raiseRegisterIndex_x (ir : Byte) : (s.raiseRegisterIndex ir).x = s.x := rfl
@[simp] theorem State.raiseRegisterIndex_pc (ir : Byte) : (s.raiseRegisterIndex ir).pc = s.pc := rfl
@[simp] theorem State.raiseRegisterIndex_mem (ir : Byte) :
    (s.raiseRegisterIndex ir).mem = s.mem := rfl
@[simp] theorem State.raiseRegisterIndex_run (ir : Byte) :
    (s.raiseRegisterIndex ir).run = .faulted := rfl
@[simp] theorem State.raiseRegisterIndex_fault (ir : Byte) :
    (s.raiseRegisterIndex ir).fault = some { cause := .registerIndex, opcode := some ir, addr := s.pc.toNat } := rfl
@[simp] theorem State.raiseRegisterIndex_out (ir : Byte) :
    (s.raiseRegisterIndex ir).out = s.out := rfl

@[simp] theorem State.aluInto_pc (op : AluOp) (ra rb : RegIdx) :
    (s.aluInto op ra rb).pc = s.pc := rfl
@[simp] theorem State.aluInto_mem (op : AluOp) (ra rb : RegIdx) :
    (s.aluInto op ra rb).mem = s.mem := rfl
@[simp] theorem State.aluInto_run (op : AluOp) (ra rb : RegIdx) :
    (s.aluInto op ra rb).run = s.run := rfl
@[simp] theorem State.aluInto_fault (op : AluOp) (ra rb : RegIdx) :
    (s.aluInto op ra rb).fault = s.fault := rfl
@[simp] theorem State.aluInto_out (op : AluOp) (ra rb : RegIdx) :
    (s.aluInto op ra rb).out = s.out := rfl

@[simp] theorem State.stackPop_fst : s.stackPop.1 = s.load s.sp := rfl
@[simp] theorem State.stackPop_snd : s.stackPop.2 = s.incSp := rfl

/-! ### Register reads -/

/-- The masked write path seen by a read (10_state.md R12). -/
@[simp] theorem State.readReg_writeReg (i j : RegIdx) (v : Int) :
    (s.writeReg i v).readReg j = if i = j then BitVec.ofInt 8 v else s.readReg j := by
  simp [State.readReg, State.writeReg, Vector.getElem_set, Fin.ext_iff]

theorem State.readReg_eq_of_x_eq {s t : State} (h : t.x = s.x) (j : RegIdx) :
    t.readReg j = s.readReg j := by simp [State.readReg, h]

@[simp] theorem State.readReg_store (addr v : Byte) (j : RegIdx) :
    (s.store addr v).readReg j = s.readReg j := rfl
@[simp] theorem State.readReg_setPc (v : Pc) (j : RegIdx) : (s.setPc v).readReg j = s.readReg j := rfl
@[simp] theorem State.readReg_advance (ir : Byte) (j : RegIdx) :
    (s.advance ir).readReg j = s.readReg j := rfl
@[simp] theorem State.readReg_output (v : Byte) (j : RegIdx) :
    (s.output v).readReg j = s.readReg j := rfl
@[simp] theorem State.readReg_halt (j : RegIdx) : s.halt.readReg j = s.readReg j := rfl
@[simp] theorem State.readReg_raise (c : Cause) (op : Option Byte) (addr : Nat) (j : RegIdx) :
    (s.raise c op addr).readReg j = s.readReg j := rfl
@[simp] theorem State.readReg_raiseRegisterIndex (ir : Byte) (j : RegIdx) :
    (s.raiseRegisterIndex ir).readReg j = s.readReg j := rfl
@[simp] theorem State.readReg_stackPush (v : Byte) (j : RegIdx) :
    (s.stackPush v).readReg j = s.decSp.readReg j := rfl

/-- The register at index 7 is the stack pointer. -/
@[simp] theorem State.readReg_seven : s.readReg 7 = s.sp := rfl

theorem ofInt_toNat_sub_one (v : Byte) : BitVec.ofInt 8 ((v.toNat : Int) - 1) = v - 1 := by
  apply BitVec.eq_of_toNat_eq
  simp [BitVec.toNat_ofInt, BitVec.toNat_sub]
  omega

theorem ofInt_toNat_add_one (v : Byte) : BitVec.ofInt 8 ((v.toNat : Int) + 1) = v + 1 := by
  apply BitVec.eq_of_toNat_eq
  simp [BitVec.toNat_ofInt]
  omega

@[simp] theorem ofInt_toNat (v : Byte) : BitVec.ofInt 8 (v.toNat : Int) = v := by
  apply BitVec.eq_of_toNat_eq
  simp

@[simp] theorem State.readReg_decSp (j : RegIdx) :
    s.decSp.readReg j = if j = 7 then s.sp - 1 else s.readReg j := by
  simp [State.decSp, ofInt_toNat_sub_one, eq_comm]

@[simp] theorem State.readReg_incSp (j : RegIdx) :
    s.incSp.readReg j = if j = 7 then s.sp + 1 else s.readReg j := by
  simp [State.incSp, ofInt_toNat_add_one, eq_comm]

@[simp] theorem State.sp_decSp : s.decSp.sp = s.sp - 1 := by
  rw [← State.readReg_seven, State.readReg_decSp]; rfl

@[simp] theorem State.sp_incSp : s.incSp.sp = s.sp + 1 := by
  rw [← State.readReg_seven, State.readReg_incSp]; rfl

/-! ### The stack pointer -/

@[simp] theorem State.sp_writeReg (i : RegIdx) (v : Int) :
    (s.writeReg i v).sp = if i = 7 then BitVec.ofInt 8 v else s.sp := by
  rw [← State.readReg_seven, State.readReg_writeReg]; rfl

@[simp] theorem State.sp_store (addr v : Byte) : (s.store addr v).sp = s.sp := rfl
@[simp] theorem State.sp_stackPush (v : Byte) : (s.stackPush v).sp = s.sp - 1 := s.sp_decSp
@[simp] theorem State.sp_setPc (v : Pc) : (s.setPc v).sp = s.sp := rfl
@[simp] theorem State.sp_advance (ir : Byte) : (s.advance ir).sp = s.sp := rfl
@[simp] theorem State.sp_output (v : Byte) : (s.output v).sp = s.sp := rfl
@[simp] theorem State.sp_halt : s.halt.sp = s.sp := rfl
@[simp] theorem State.sp_raise (c : Cause) (op : Option Byte) (addr : Nat) :
    (s.raise c op addr).sp = s.sp := rfl
@[simp] theorem State.sp_raiseRegisterIndex (ir : Byte) :
    (s.raiseRegisterIndex ir).sp = s.sp := rfl

@[simp] theorem State.readReg_aluInto (op : AluOp) (ra rb j : RegIdx) :
    (s.aluInto op ra rb).readReg j =
      if ra = j then alu op (s.readReg ra) (s.readReg rb) else s.readReg j := by
  simp [State.aluInto]

/-- The stack pointer goes down modulo 256 (44_stack.md R115, R118). -/
theorem toNat_sub_one (v : Byte) : ((v - 1).toNat : Int) = ((v.toNat : Int) - 1) % 256 := by
  rw [← ofInt_toNat_sub_one, BitVec.toNat_ofInt]; omega

/-- The stack pointer goes up modulo 256 (44_stack.md R115, R118). -/
theorem toNat_add_one (v : Byte) : (v + 1).toNat = (v.toNat + 1) % 256 := by
  simp [BitVec.toNat_add]

end Sys2Proof.Machine
end

