-- ==== Sys2Proof/Laws/Exec.lean ====
section
/-! SUPPORT. One lemma per shared operation of the meanings: what an operand byte selects, what the two
operand forms answer, and what every handler answers. -/

namespace Sys2Proof.Machine

/-- An operand byte of value 0 to 7 selects that register. -/
theorem regOperand_eq_some {a : Byte} {r : RegIdx} : regOperand a = some r ↔ a.toNat = r.val := by
  unfold regOperand
  split
  · simp [Fin.ext_iff]
  · have := r.isLt
    simp only [reduceCtorEq, false_iff]
    omega

/-- An operand byte of value 8 to 255 selects none. -/
theorem regOperand_eq_none {a : Byte} : regOperand a = none ↔ 8 ≤ a.toNat := by
  unfold regOperand
  split <;> simp <;> omega

/-- Every operand byte selects a register or is above 7. -/
theorem regOperand_cases (a : Byte) : (∃ r : RegIdx, a.toNat = r.val) ∨ 8 ≤ a.toNat := by
  by_cases h : a.toNat < 8
  · exact .inl ⟨⟨a.toNat, h⟩, rfl⟩
  · exact .inr (by omega)

theorem withReg_of_reg {ir a : Byte} {s : State} {body : RegIdx → State} {r : RegIdx}
    (h : a.toNat = r.val) : withReg ir a s body = .next (body r) := by
  simp [withReg, regOperand_eq_some.mpr h]

theorem withReg_of_bad {ir a : Byte} {s : State} {body : RegIdx → State} (h : 8 ≤ a.toNat) :
    withReg ir a s body = .next (s.raiseRegisterIndex ir) := by
  simp [withReg, regOperand_eq_none.mpr h]

theorem withRegs_of_regs {ir a b : Byte} {s : State} {body : RegIdx → RegIdx → State}
    {ra rb : RegIdx} (ha : a.toNat = ra.val) (hb : b.toNat = rb.val) :
    withRegs ir a b s body = .next (body ra rb) := by
  simp [withRegs, regOperand_eq_some.mpr ha, regOperand_eq_some.mpr hb]

theorem withRegs_of_bad {ir a b : Byte} {s : State} {body : RegIdx → RegIdx → State}
    (h : 8 ≤ a.toNat ∨ 8 ≤ b.toNat) :
    withRegs ir a b s body = .next (s.raiseRegisterIndex ir) := by
  unfold withRegs
  obtain ⟨ra, ha⟩ | ha := regOperand_cases a
  · have hb : 8 ≤ b.toNat := by
      have := ra.isLt
      omega
    simp [regOperand_eq_some.mpr ha, regOperand_eq_none.mpr hb]
  · simp [regOperand_eq_none.mpr ha]

/-- Everything the one-operand form can do. -/
theorem withReg_cases (ir a : Byte) (s : State) (body : RegIdx → State) :
    (∃ r : RegIdx, a.toNat = r.val ∧ withReg ir a s body = .next (body r)) ∨
    (8 ≤ a.toNat ∧ withReg ir a s body = .next (s.raiseRegisterIndex ir)) := by
  obtain ⟨r, h⟩ | h := regOperand_cases a
  · exact .inl ⟨r, h, withReg_of_reg h⟩
  · exact .inr ⟨h, withReg_of_bad h⟩

/-- Everything the two-operand form can do. -/
theorem withRegs_cases (ir a b : Byte) (s : State) (body : RegIdx → RegIdx → State) :
    (∃ ra rb : RegIdx, a.toNat = ra.val ∧ b.toNat = rb.val ∧
      withRegs ir a b s body = .next (body ra rb)) ∨
    ((8 ≤ a.toNat ∨ 8 ≤ b.toNat) ∧ withRegs ir a b s body = .next (s.raiseRegisterIndex ir)) := by
  obtain ⟨ra, ha⟩ | ha := regOperand_cases a
  · obtain ⟨rb, hb⟩ | hb := regOperand_cases b
    · exact .inl ⟨ra, rb, ha, hb, withRegs_of_regs ha hb⟩
    · exact .inr ⟨.inr hb, withRegs_of_bad (.inr hb)⟩
  · exact .inr ⟨.inl ha, withRegs_of_bad (.inl ha)⟩

/-- What a handler does when its register operands exist, as a state. Operand bytes above 7 do not
reach it. -/
def completed : Instr → RegIdx → RegIdx → State → State
  | .ldi _ imm, ra, _, s => (s.writeReg ra imm.toNat).advance opLdi
  | .prn _, ra, _, s => (s.output (s.readReg ra)).advance opPrn
  | .add _ _, ra, rb, s => (s.aluInto .add ra rb).advance opAdd
  | .mul _ _, ra, rb, s => (s.aluInto .mul ra rb).advance opMul
  | .hlt, _, _, s => (s.advance opHlt).halt
  | .push _, ra, _, s => (s.stackPush (s.decSp.readReg ra)).advance opPush
  | .pop _, ra, _, s => (s.writeReg ra (s.load s.sp).toNat).incSp.advance opPop
  | .call _, ra, _, s =>
    (s.stackPush s.returnAddress).setPc (zext9 ((s.stackPush s.returnAddress).readReg ra))
  | .ret, _, _, s => s.incSp.setPc (zext9 (s.load s.sp))

/-- The register operands of an instruction are these registers; an operand that is no register
operand is not constrained. -/
def operandsAre : Instr → RegIdx → RegIdx → Prop
  | .ldi a _, ra, _ => a.toNat = ra.val
  | .prn a, ra, _ => a.toNat = ra.val
  | .add a b, ra, rb => a.toNat = ra.val ∧ b.toNat = rb.val
  | .mul a b, ra, rb => a.toNat = ra.val ∧ b.toNat = rb.val
  | .hlt, _, _ => True
  | .push a, ra, _ => a.toNat = ra.val
  | .pop a, ra, _ => a.toNat = ra.val
  | .call a, ra, _ => a.toNat = ra.val
  | .ret, _, _ => True

/-- A handler whose register operands exist completes, with this state. -/
theorem exec_of_operands {i : Instr} {ra rb : RegIdx} (s : State) (h : operandsAre i ra rb) :
    exec i s = .next (completed i ra rb s) := by
  cases i with
  | ldi a imm => exact withReg_of_reg h
  | prn a => exact withReg_of_reg h
  | add a b => exact withRegs_of_regs h.1 h.2
  | mul a b => exact withRegs_of_regs h.1 h.2
  | hlt => rfl
  | push a => exact withReg_of_reg h
  | pop a => exact withReg_of_reg h
  | call a => exact withReg_of_reg h
  | ret => rfl

/-- A well-formed instruction is one whose register operands exist. -/
theorem wellFormed_iff (i : Instr) : i.wellFormed = true ↔ ∃ ra rb, operandsAre i ra rb := by
  have key : ∀ a : Byte, namesRegister a = true ↔ ∃ r : RegIdx, a.toNat = r.val := by
    intro a
    simp only [namesRegister, decide_eq_true_eq]
    exact ⟨fun h => ⟨⟨a.toNat, h⟩, rfl⟩, fun ⟨r, h⟩ => h ▸ r.isLt⟩
  cases i <;> simp [Instr.wellFormed, operandsAre, key]

/-- A handler with a register operand above 7 raises RegisterIndexError. -/
theorem exec_of_not_wellFormed {i : Instr} (s : State) (h : i.wellFormed = false) :
    exec i s = .next (s.raiseRegisterIndex (opcodeOf i)) := by
  have key : ∀ {a : Byte}, namesRegister a = false → 8 ≤ a.toNat := by
    intro a ha
    simpa [namesRegister] using ha
  have two : ∀ {a b : Byte}, (namesRegister a && namesRegister b) = false →
      8 ≤ a.toNat ∨ 8 ≤ b.toNat := by
    intro a b hab
    exact (Bool.and_eq_false_iff.mp hab).imp key key
  cases i with
  | ldi a imm => exact withReg_of_bad (key h)
  | prn a => exact withReg_of_bad (key h)
  | add a b => exact withRegs_of_bad (two h)
  | mul a b => exact withRegs_of_bad (two h)
  | hlt => cases h
  | push a => exact withReg_of_bad (key h)
  | pop a => exact withReg_of_bad (key h)
  | call a => exact withReg_of_bad (key h)
  | ret => cases h

/-- Everything a handler can do: complete, or raise RegisterIndexError. -/
theorem exec_cases (i : Instr) (s : State) :
    (∃ ra rb, operandsAre i ra rb ∧ exec i s = .next (completed i ra rb s)) ∨
    (i.wellFormed = false ∧ exec i s = .next (s.raiseRegisterIndex (opcodeOf i))) := by
  by_cases h : i.wellFormed = true
  · obtain ⟨ra, rb, ho⟩ := (wellFormed_iff i).mp h
    exact .inl ⟨ra, rb, ho, exec_of_operands s ho⟩
  · have hf : i.wellFormed = false := by simpa using h
    exact .inr ⟨hf, exec_of_not_wellFormed s hf⟩

/-- A completed handler keeps the fault record; HLT alone changes the run state. -/
theorem completed_fault_run (i : Instr) (ra rb : RegIdx) (s : State) :
    (completed i ra rb s).fault = s.fault ∧
    (completed i ra rb s).run = if i = .hlt then .halted else s.run := by
  cases i <;> simp [completed]

/-- A completed handler keeps memory canonical. -/
theorem completed_wf (i : Instr) (ra rb : RegIdx) {s : State} (h : Memory.wf s.mem = true) :
    Memory.wf (completed i ra rb s).mem = true := by
  cases i with
  | push a => exact State.stackPush_wf h _
  | call a => exact State.stackPush_wf h _
  | _ => exact h

end Sys2Proof.Machine
end

