-- ==== Sys2Proof/Laws/PerInstr.lean ====
section
/-! SUPPORT. Per-instruction families: a statement about an instruction as syntax, and one lemma per
constructor. -/

/-- Family EncodedLength: an instruction's bytes are its opcode byte and then n operand bytes, with n
read from the opcode's top two bits (30_encoding.md R50, R61). -/
def Sys2Proof.Laws.EncodedLength.Statement (i : Sys2Proof.Instr) : Prop :=
  (Sys2Proof.encode i).head? = some (Sys2Proof.opcodeOf i) ∧
    (Sys2Proof.encode i).length = Sys2Proof.operandCount (Sys2Proof.opcodeOf i) + 1

namespace Sys2Proof.Laws.EncodedLength

open Sys2Proof.Machine

theorem ldi (a imm : Byte) : Statement (.ldi a imm) := ⟨rfl, by simp [encode, opcodeOf]⟩
theorem prn (a : Byte) : Statement (.prn a) := ⟨rfl, by simp [encode, opcodeOf]⟩
theorem add (a b : Byte) : Statement (.add a b) := ⟨rfl, by simp [encode, opcodeOf]⟩
theorem mul (a b : Byte) : Statement (.mul a b) := ⟨rfl, by simp [encode, opcodeOf]⟩
theorem hlt : Statement .hlt := ⟨rfl, by simp [encode, opcodeOf]⟩
theorem push (a : Byte) : Statement (.push a) := ⟨rfl, by simp [encode, opcodeOf]⟩
theorem pop (a : Byte) : Statement (.pop a) := ⟨rfl, by simp [encode, opcodeOf]⟩
theorem call (a : Byte) : Statement (.call a) := ⟨rfl, by simp [encode, opcodeOf]⟩
theorem ret : Statement .ret := ⟨rfl, by simp [encode, opcodeOf]⟩

end Sys2Proof.Laws.EncodedLength
end

