-- ==== Sys2Proof/Laws/Step.lean ====
section
/-! SUPPORT. What one step can do, said once. -/

namespace Sys2Proof.Machine

/-- The fetch succeeds exactly up to 253, and reads the opcode and both slots. -/
theorem fetch_of_le {s : State} (h : s.pc.toNat ≤ 253) :
    fetch s = .ok { ir := s.opcodeAt, a := s.slotA, b := s.slotB } := by
  have h0 : s.pc.toNat < Config.memCells := by simp only [Config.memCells]; omega
  have h1 : s.pc.toNat + 1 < Config.memCells := by simp only [Config.memCells]; omega
  have h2 : s.pc.toNat + 2 < Config.memCells := by simp only [Config.memCells]; omega
  simp [fetch, State.memRead?, h0, h1, h2, State.opcodeAt, State.slotA, State.slotB]

/-- From 254 on the fetch raises AddressRangeError, with the address and the opcode of
40_fetch_decode_dispatch.md R74. -/
theorem fetch_of_ge {s : State} (h : 254 ≤ s.pc.toNat) :
    fetch s = .error (s.raise .addressRange
      (if s.pc.toNat ≤ 255 then some s.opcodeAt else none)
      (if s.pc.toNat ≤ 255 then 256 else s.pc.toNat)) := by
  by_cases h255 : s.pc.toNat ≤ 255
  · by_cases h254 : s.pc.toNat = 254
    · simp [fetch, State.memRead?, Config.memCells, State.opcodeAt, h254]
    · have e : s.pc.toNat = 255 := by omega
      simp [fetch, State.memRead?, Config.memCells, State.opcodeAt, e]
  · have hout : ¬ s.pc.toNat < Config.memCells := by simp only [Config.memCells]; omega
    simp [fetch, State.memRead?, hout, h255]

theorem step_of_running {s : State} (h : s.run = .running) : step s = cycle s := by
  simp [step, h]

theorem step_of_decode {s : State} {i : Instr} (hr : s.run = .running) (hp : s.pc.toNat ≤ 253)
    (hd : decode s.opcodeAt s.slotA s.slotB = .ok i) : step s = exec i s := by
  simp [step_of_running hr, cycle, fetch_of_le hp, hd]

/-- Everything a step can do when it answers a next state: a fetch fault, a decode fault, or the handler
of the instruction decoded. -/
theorem step_cases {s t : State} (h : step s = .next t) :
    s.run = .running ∧
    ((254 ≤ s.pc.toNat ∧ t = s.raise .addressRange
        (if s.pc.toNat ≤ 255 then some s.opcodeAt else none)
        (if s.pc.toNat ≤ 255 then 256 else s.pc.toNat)) ∨
     (s.pc.toNat ≤ 253 ∧ s.opcodeAt ∉ legalOpcodes ∧
        t = s.raise .decodeError (some s.opcodeAt) s.pc.toNat) ∨
     (∃ i, s.pc.toNat ≤ 253 ∧ s.opcodeAt = opcodeOf i ∧ slotsOf i s.slotA s.slotB ∧
        exec i s = .next t)) := by
  have hr : s.run = .running := by
    cases hrun : s.run with
    | running => rfl
    | halted => simp [step, hrun] at h
    | faulted => simp [step, hrun] at h
  refine ⟨hr, ?_⟩
  rw [step_of_running hr] at h
  by_cases hp : s.pc.toNat ≤ 253
  · right
    cases hd : decode s.opcodeAt s.slotA s.slotB with
    | error e =>
      left
      simp only [cycle, fetch_of_le hp, hd] at h
      cases h
      exact ⟨hp, (decode_eq_error_iff _ _ _).mp ⟨e, hd⟩, rfl⟩
    | ok i =>
      right
      simp only [cycle, fetch_of_le hp, hd] at h
      obtain ⟨h1, h2⟩ := (decode_eq_ok_iff _ _ _ _).mp hd
      exact ⟨i, hp, h1, h2, h⟩
  · left
    have hp' : 254 ≤ s.pc.toNat := by omega
    simp only [cycle, fetch_of_ge hp'] at h
    cases h
    exact ⟨hp', rfl⟩

end Sys2Proof.Machine
end

