-- ==== Sys2Proof/Tests/Slice0.lean ====
section
/-! SUPPORT. The model's own tests. Expected results come from the spec: the opcode table of
30_encoding.md R53 and the vectors of 95_test_vectors.md. The second half shows, for every obligation
that has hypotheses, a concrete state and operands that meet them all. -/

namespace Sys2Proof.Tests

open Sys2Proof.Machine

/-- A running state with these registers, this pc and this memory; nothing emitted. -/
def st (x : Vector Byte 8) (pc : Pc) (mem : Memory) : State :=
  { State.reset with x := x, pc := pc, mem := mem }

/-- The register file after reset, with register 0 and 1 and the stack pointer given. -/
def regs (r0 r1 sp : Byte) : Vector Byte 8 := #v[r0, r1, 0, 0, 0, 0, 0, sp]

/-- The next state, if there is one. -/
def nextOf : Host.Outcome State Fault Refusal → Option State
  | .next t => some t
  | .fault _ => none
  | .refused _ => none

/-- A test of the next state. -/
def after (o : Host.Outcome State Fault Refusal) (p : State → Bool) : Bool :=
  match nextOf o with
  | some t => p t
  | none => false

/-- The fault record of the next state. -/
def recordOf (o : Host.Outcome State Fault Refusal) : Option FaultRecord :=
  (nextOf o).bind fun t => t.fault

/-! ### WellFormed refuses each ill-formed register operand -/

theorem test_wf_refuses_ldi : (Instr.ldi 8 1).wellFormed = false := by decide
theorem test_wf_refuses_prn : (Instr.prn 8).wellFormed = false := by decide
theorem test_wf_refuses_add : (Instr.add 8 0).wellFormed = false := by decide
theorem test_wf_refuses_add_second : (Instr.add 0 8).wellFormed = false := by decide
theorem test_wf_refuses_mul : (Instr.mul 255 0).wellFormed = false := by decide
theorem test_wf_refuses_mul_second : (Instr.mul 0 255).wellFormed = false := by decide
theorem test_wf_refuses_push : (Instr.push 8).wellFormed = false := by decide
theorem test_wf_refuses_pop : (Instr.pop 8).wellFormed = false := by decide
theorem test_wf_refuses_call : (Instr.call 8).wellFormed = false := by decide
theorem test_wf_accepts : (Instr.ldi 7 255).wellFormed = true ∧ Instr.hlt.wellFormed = true ∧
    Instr.ret.wellFormed = true ∧ (Instr.add 7 7).wellFormed = true := by decide

/-! ### Decoding: each row's word written out bit by bit from R53; the illegal bytes of section 2.1 -/

theorem test_decode_ldi : decode 0b10000010 0 8 = .ok (.ldi 0 8) := by rfl
theorem test_decode_prn : decode 0b01000111 0 0 = .ok (.prn 0) := by rfl
theorem test_decode_add : decode 0b10100000 0 1 = .ok (.add 0 1) := by rfl
theorem test_decode_mul : decode 0b10100010 0 1 = .ok (.mul 0 1) := by rfl
theorem test_decode_hlt : decode 0b00000001 255 255 = .ok .hlt := by rfl
theorem test_decode_push : decode 0b01000101 7 9 = .ok (.push 7) := by rfl
theorem test_decode_pop : decode 0b01000110 6 9 = .ok (.pop 6) := by rfl
theorem test_decode_call : decode 0b01010000 1 9 = .ok (.call 1) := by rfl
theorem test_decode_ret : decode 0b00010001 3 4 = .ok .ret := by rfl
theorem test_decode_zero_is_no_nop : decode 0x00 0 0 = .error (.unknownOpcode 0x00) := by rfl
theorem test_decode_wrong_count : decode 0xC2 0 8 = .error (.unknownOpcode 0xC2) ∧
    decode 0x02 0 8 = .error (.unknownOpcode 0x02) := ⟨rfl, rfl⟩
set_option maxRecDepth 4000 in
/-- R55: 247 of the 256 opcode bytes are illegal. -/
theorem test_decode_count_of_illegal : (List.range 256).countP (fun n =>
    !legalOpcodes.contains (BitVec.ofNat 8 n)) = 247 := by decide
theorem test_decode_table_word : decodeTableWord 24 0x080082 = some (.ldi 0 8) ∧
    decodeTableWord 8 0x11 = some .ret ∧ decodeTableWord 16 0x0345 = some (.push 3) ∧
    decodeTableWord 8 0x00 = none := by decide
theorem test_decode_truncated : decodeBytes [0x82, 0] = .error (.truncated 0x82) ∧
    decodeBytes [] = .error .noBytes := ⟨rfl, rfl⟩
theorem test_encode_image : [Instr.ldi 0 8, .ldi 1 9, .mul 0 1, .prn 0, .hlt].flatMap encode =
    [0x82, 0x00, 0x08, 0x82, 0x01, 0x09, 0xA2, 0x00, 0x01, 0x47, 0x00, 0x01] := by decide

/-! ### One step of each instruction -/

/-- V1. -/
theorem test_ldi : nextOf (step (State.reset.withFetchWord 24 0x080082)) =
    some (st (regs 8 0 0xF4) 3 [(0, 0x82), (2, 8)]) := by decide
/-- V4: the stack pointer moved. -/
theorem test_ldi_sp : after (exec (.ldi 7 0x10) State.reset) (fun t => t.sp == 0x10) = true := by decide
/-- V7. -/
theorem test_prn : after (exec (.prn 0) (st (regs 72 0 0xF4) 5 []))
    (fun t => t.out == [72] && t.pc == 7) = true := by decide
/-- V9. -/
theorem test_prn_sp : after (exec (.prn 7) State.reset) (fun t => t.out == [244]) = true := by decide
/-- V23. -/
theorem test_add_wraps : after (exec (.add 0 1) (st (regs 200 100 0xF4) 9 []))
    (fun t => t.readReg 0 == 44 && t.readReg 1 == 100 && t.pc == 12) = true := by decide
/-- V43: the stack pointer as destination. -/
theorem test_add_sp : after (exec (.add 7 0) (st (regs 0x10 0 0xF4) 0 []))
    (fun t => t.sp == 0x04 && t.readReg 0 == 0x10) = true := by decide
/-- V30. -/
theorem test_mul : after (exec (.mul 0 1) (st (regs 8 9 0xF4) 6 []))
    (fun t => t.readReg 0 == 72 && t.readReg 1 == 9 && t.pc == 9) = true := by decide
/-- V40. -/
theorem test_mul_square : after (exec (.mul 0 0) (st (regs 200 0 0xF4) 0 []))
    (fun t => t.readReg 0 == 64) = true := by decide
/-- V51. -/
theorem test_hlt : nextOf (step (st (regs 0 0 0xF4) 253 [(253, 1)])) =
    some { st (regs 0 0 0xF4) 254 [(253, 1)] with run := .halted } := by decide
/-- V60. -/
theorem test_push : nextOf (exec (.push 0) (st (regs 5 0 0xF4) 3 [])) =
    some (st (regs 5 0 0xF3) 5 [(0xF3, 5)]) := by decide
/-- V63: the new stack pointer is stored, and the wrap is silent. -/
theorem test_push_sp : nextOf (exec (.push 7) (st (regs 0 0 0) 3 [])) =
    some (st (regs 0 0 255) 5 [(255, 255)]) := by decide
/-- V65: the popped cell keeps its byte. -/
theorem test_pop : nextOf (exec (.pop 0) (st (regs 0 0 0xF3) 8 [(0xF3, 5)])) =
    some (st (regs 5 0 0xF4) 10 [(0xF3, 5)]) := by decide
/-- V68: loaded, then incremented. -/
theorem test_pop_sp : after (exec (.pop 7) (st (regs 0 0 0xF0) 8 [(0xF0, 0xFF)]))
    (fun t => t.sp == 0) = true := by decide
/-- V81: the largest return address. -/
theorem test_call : nextOf (exec (.call 0) (st (regs 0 0 0x80) 253 [])) =
    some (st (regs 0 0 0x7F) 0 [(0x7F, 255)]) := by decide
/-- V82: the target is the new stack pointer. -/
theorem test_call_sp : after (exec (.call 7) (st (regs 0 0 0xF4) 0x20 []))
    (fun t => t.pc == 0xF3 && t.load 0xF3 == 0x22) = true := by decide
/-- V87. -/
theorem test_ret : nextOf (exec .ret (st (regs 0 0 255) 1 [(255, 0x30)])) =
    some (st (regs 0 0 0) 0x30 [(255, 0x30)]) := by decide

/-! ### Faults -/

/-- V52 and V53: no instruction executes from 254 or 255. -/
theorem test_fetch_slot_faults :
    recordOf (step (st (regs 0 0 0xF4) 254 [(254, 1)])) = some ⟨.addressRange, some 1, 256⟩ ∧
    recordOf (step (st (regs 0 0 0xF4) 255 [(255, 1)])) = some ⟨.addressRange, some 1, 256⟩ := by
  decide
/-- V54. -/
theorem test_fetch_opcode_faults :
    recordOf (step (st (regs 0 0 0xF4) 256 [])) = some ⟨.addressRange, none, 256⟩ := by decide
/-- V91: the fetch fault comes before the decode fault. -/
theorem test_fetch_fault_first :
    recordOf (step (st (regs 0 0 0xF4) 254 [])) = some ⟨.addressRange, some 0, 256⟩ := by decide
/-- V93: the decode fault comes before the index fault. -/
theorem test_decode_fault_first :
    recordOf (step (st (regs 0 0 0xF4) 10 [(11, 255), (12, 255)])) = some ⟨.decodeError, some 0, 10⟩ := by
  decide
/-- V94. -/
theorem test_index_fault :
    nextOf (step (st (regs 0 0 0xF4) 10 [(10, 0xA0), (11, 9), (12, 10)])) =
      some { st (regs 0 0 0xF4) 10 [(10, 0xA0), (11, 9), (12, 10)] with
        run := .faulted, fault := some ⟨.registerIndex, some 0xA0, 10⟩ } := by decide
/-- V95: an ignored slot never faults on content. -/
theorem test_ignored_slots : after (step (st (regs 0 0 0xF4) 10 [(10, 1), (11, 255), (12, 255)]))
    (fun t => t.pc == 11 && t.run == .halted) = true := by decide
/-- R44: the empty image faults on opcode 0; D12: 257 bytes are refused. -/
theorem test_launch_empty : after (launch []) (fun s => recordOf (step s) ==
    some ⟨.decodeError, some 0, 0⟩) = true := by decide
theorem test_launch_too_long : nextOf (launch (List.replicate 257 0)) = none := by
  rw [launch, if_neg (by rw [List.length_replicate]; decide)]; rfl
theorem test_cause_codes : [Cause.decodeError, .unsupportedOperation, .addressRange,
    .registerIndex].map Cause.code = [1, 2, 3, 4] := by decide
theorem test_fault_report : (State.reset.raise .decodeError (some 0) 11).faultReport =
    some (some 0, 11) := by decide
/-- R92: the lines of P6's output. -/
theorem test_rendered : { State.reset with out := [42, 254, 0] }.rendered =
    ['4', '2', '\n', '2', '5', '4', '\n', '0', '\n'] := by decide

/-! ### Witnesses: hypotheses met by concrete states and operands -/

/-- LaunchPlacesImage at both boundary lengths; a launched state runs (LaunchedRunKeepsInvariant). -/
theorem witness_launch : (List.replicate 256 (1 : Byte)).length ≤ 256 ∧
    256 < (List.replicate 257 (1 : Byte)).length ∧
    after (launch [0x82, 0, 8]) (fun s => after (core.run 1 s) (fun _ => true)) = true :=
  ⟨by rw [List.length_replicate], by rw [List.length_replicate]; decide, by decide⟩

/-- StepKeepsInvariant and OnlyHltHalts: reset meets the invariant and a step from a state that differs
from it in memory alone answers a next state. -/
theorem witness_step_keeps_invariant : ∃ s t, StateInv s ∧ step s = .next t :=
  ⟨State.reset.withFetchWord 8 1, _,
    ⟨by decide, by decide, by decide, (by intro r h; cases h), (by intro h; cases h)⟩, rfl⟩

/-- DecodeEncodeAgree: both sides of the equivalence are met. -/
theorem witness_decode_encode : decodeBytes [0x82, 9, 255, 7] = .ok (.ldi 9 255, [7]) ∧
    [0x82, 9, 255, 7] = encode (.ldi 9 255) ++ [7] := ⟨rfl, rfl⟩

/-- WholeOpcodeByteSelects and UnusedSlotsIgnored: each clause. -/
theorem witness_opcode_bytes : (0x11 : Byte) ∈ legalOpcodes ∧ (0x12 : Byte) ∉ legalOpcodes ∧
    operandCount 0x11 = 0 ∧ operandCount 0x50 = 1 := by decide

/-- StepRunsDecodedInstruction at the highest address it covers. -/
theorem witness_step_runs_decoded : ∃ (s : State) (i : Instr), s.run = .running ∧ s.pc.toNat ≤ 253 ∧
    decode s.opcodeAt s.slotA s.slotB = .ok i :=
  ⟨st (regs 0 0 0xF4) 253 [(253, 0x82), (255, 9)], .ldi 0 9, rfl, by decide, rfl⟩

/-- PlacedWordRunsNext at the highest address it covers. -/
theorem witness_placed_word : ∃ s : State, ∃ i, Memory.wf s.mem = true ∧ s.run = .running ∧
    s.pc.toNat ≤ 253 ∧ decodeTableWord 24 0x010082 = some i :=
  ⟨st (regs 0 0 0xF4) 253 [], .ldi 0 1, by decide, rfl, by decide, by decide⟩

/-- StepExistsExactlyWhenRunning: each run state. -/
theorem witness_run_states : State.reset.run = .running ∧ State.reset.halt.run = .halted ∧
    (State.reset.raise .decodeError none 0).run = .faulted := ⟨rfl, rfl, rfl⟩

/-- FetchBeyondMemoryFaults at 254, 255 and 256. -/
theorem witness_fetch_beyond : ∀ pc ∈ [254#9, 255#9, 256#9],
    (st (regs 0 0 0xF4) pc []).run = .running ∧ 254 ≤ (st (regs 0 0 0xF4) pc []).pc.toNat := by decide

/-- UnknownOpcodeFaults at 253. -/
theorem witness_unknown_opcode : (st (regs 0 0 0xF4) 253 []).run = .running ∧
    (st (regs 0 0 0xF4) 253 []).pc.toNat ≤ 253 ∧
    (st (regs 0 0 0xF4) 253 []).opcodeAt ∉ legalOpcodes := by decide

/-- BadRegisterIndexFaults at 8 and 255. -/
theorem witness_bad_index : 8 ≤ (8 : Byte).toNat ∧ 8 ≤ (255 : Byte).toNat := by decide

/-- FaultsArePrecise and FaultExactlyWhenSpecified: a step that faults, for each cause. -/
theorem witness_faulting_steps :
    recordOf (step (st (regs 0 0 0xF4) 256 [])) = some ⟨.addressRange, none, 256⟩ ∧
    recordOf (step (st (regs 0 0 0xF4) 253 [])) = some ⟨.decodeError, some 0, 253⟩ ∧
    recordOf (step (st (regs 0 0 0xF4) 253 [(253, 0x47), (254, 8)])) =
      some ⟨.registerIndex, some 0x47, 253⟩ := by decide

/-- OnlyHltHalts: HLT answers HALTED from a running state, ADD does not, and a halted state exists. -/
theorem witness_halting : State.reset.run = .running ∧
    after (exec .hlt State.reset) (fun t => t.run == .halted) = true ∧
    after (exec (.add 0 0) State.reset) (fun t => t.run == .running) = true ∧
    State.reset.halt.run = .halted := by decide

/-- The operand hypothesis of LDI, PRN, ADD, MUL, PUSH, POP, CALL (and of RegisterWritesAreMasked): every
register index is met by an operand byte. -/
theorem witness_operands : ∀ r : RegIdx, ∃ a : Byte, a.toNat = r.val := by decide

/-- RegisterWritesAreMasked's POP into register 7: the byte loaded, 255, wraps (V68); LDI's immediate is
not bound by a register index. -/
theorem witness_masked_writes :
    after (exec (.ldi 7 255) State.reset) (fun t => t.sp == 255) = true ∧
    after (exec (.pop 7) (st (regs 0 0 255) 0 [(255, 255)])) (fun t => t.sp == 0) = true := by decide

/-- OutputRendersAsDecimalLines: a state with an empty output. -/
theorem witness_empty_output : State.reset.out = [] ∧ State.reset.rendered = [] := ⟨rfl, rfl⟩

/-- PUSH, CALL, StackPrimitives and CanonicalMemoryUnique: a canonical memory; CALL at 253. -/
theorem witness_stack_premises : Memory.wf (st (regs 0 0 0) 253 [(0, 1), (255, 255)]).mem = true ∧
    (st (regs 0 0 0) 253 [(0, 1), (255, 255)]).pc.toNat ≤ 253 := by decide

/-- OutputGrowsOnlyByPrn: a PRN that completes, a PRN that faults, an instruction that is not PRN. -/
theorem witness_output :
    after (step (st (regs 9 0 0xF4) 253 [(253, 0x47), (254, 7)])) (fun t => t.out == [0xF4]) = true ∧
    after (step (st (regs 9 0 0xF4) 0 [(0, 0x47), (1, 8)])) (fun t => t.run == .faulted) = true ∧
    after (step (st (regs 9 0 0xF4) 0 [(0, 0x82)])) (fun t => t.out == []) = true := by decide

/-- OutputAndRecordNeverRead: a step that completes; a faulting one is `witness_faulting_steps`. -/
theorem witness_output_unread : ∃ s t, step s = .next t :=
  ⟨st (regs 9 0 0xF4) 0 [(0, 0x47)], _, rfl⟩

/-- RegistersWrittenOnlyAsListed: LDI changes its operand's register, RET register 7. -/
theorem witness_register_written :
    after (step (st (regs 0 0 0xF4) 0 [(0, 0x82), (2, 8)])) (fun t => t.readReg 0 != 0) = true ∧
    after (step (st (regs 0 0 0xF4) 0 [(0, 0x11)])) (fun t => t.readReg 7 != 0xF4) = true := by decide

/-- MemoryWrittenOnlyByPushCall: PUSH and CALL change a byte of a canonical memory, at both wraps. -/
theorem witness_memory_written : Memory.wf [(0, 0x45)] = true ∧ Memory.wf [(0, 0x50)] = true ∧
    after (step (st (regs 5 0 0) 0 [(0, 0x45)])) (fun t => Memory.read t.mem 255 != 0) = true ∧
    after (step (st (regs 5 0 1) 0 [(0, 0x50)])) (fun t => Memory.read t.mem 0 != 0x50) = true := by
  decide

/-- OnlyCallRetTransferControl: CALL, RET and a falling through instruction complete. -/
theorem witness_transfers :
    after (exec (.call 0) (st (regs 255 0 0) 253 [])) (fun t => t.run != .faulted && t.pc == 255) ∧
    after (exec .ret (st (regs 0 0 0) 253 [(0, 254)])) (fun t => t.run != .faulted && t.pc == 254) ∧
    after (exec (.ldi 0 0) (st (regs 0 0 0) 253 [])) (fun t => t.run != .faulted && t.pc == 256) := by
  decide

/-- The state of V72 and V71: PUSH Rr at 3, POP Rr at 5. -/
def roundTrip (r : Byte) : State :=
  st (regs 77 0 0x80) 3 ([(3, 0x45)] ++ (if r = 0 then [] else [(4, r)]) ++ [(5, 0x46)] ++
    (if r = 0 then [] else [(6, r)]))

/-- PushPopRoundTrip, for registers 0 and 7. -/
theorem witness_round_trip : ∀ r ∈ [0#8, 7#8], Memory.wf (roundTrip r).mem = true ∧
    (roundTrip r).run = .running ∧ (roundTrip r).pc.toNat ≤ 251 ∧ (roundTrip r).opcodeAt = 0x45 ∧
    (roundTrip r).slotA = r ∧ (roundTrip r).slotB = 0x46 ∧
    Memory.read (roundTrip r).mem ((roundTrip r).pc.toNat + 3) = (roundTrip r).slotA ∧
    (roundTrip r).decSp.sp.toNat ≠ (roundTrip r).pc.toNat + 2 ∧
    (roundTrip r).decSp.sp.toNat ≠ (roundTrip r).pc.toNat + 3 := by decide

/-- CallThenRetResumes: V80's CALL, and a state as the subroutine's RET finds it. -/
theorem witness_call_ret :
    let s := st (regs 0 11 0xF4) 6 [(6, 0x50), (7, 1), (11, 0x11)]
    Memory.wf s.mem = true ∧ s.run = .running ∧ s.pc.toNat ≤ 253 ∧ s.opcodeAt = 0x50 ∧
      s.slotA.toNat = (1 : RegIdx).val ∧
      after (step s) (fun t => t.run == .running && t.pc == 11 && t.opcodeAt == 0x11) = true := by
  decide

/-- PushThenRetJumps: V89. -/
theorem witness_push_ret :
    let s := st (regs 0x40 0 0xF4) 0 [(0, 0x45), (2, 0x11)]
    Memory.wf s.mem = true ∧ s.run = .running ∧ s.pc.toNat ≤ 251 ∧ s.opcodeAt = 0x45 ∧
      s.slotA.toNat = (0 : RegIdx).val ∧ s.slotB = 0x11 ∧ s.decSp.sp.toNat ≠ s.pc.toNat + 2 := by
  decide

/-- StoredBytesAreFetchedNext: PUSH stores at the next opcode, and at each next slot; CALL at its own
target. -/
theorem witness_stored_fetched : ∀ sp ∈ [3#8, 4#8, 5#8],
    (let s := st (regs 1 0 sp) 0 [(0, 0x45)]
     Memory.wf s.mem = true ∧ s.slotA.toNat = (0 : RegIdx).val ∧ s.opcodeAt = 0x45 ∧
       after (step s) (fun t => t.run == .running && decide (t.pc.toNat ≤ 253) &&
         decide (t.pc.toNat ≤ t.sp.toNat) && decide (t.sp.toNat ≤ t.pc.toNat + 2)) = true) ∧
    (let s := st (regs 2 0 3) 0 [(0, 0x50)]
     Memory.wf s.mem = true ∧ s.slotA.toNat = (0 : RegIdx).val ∧ s.opcodeAt = 0x50 ∧
       after (step s) (fun t => t.run == .running && decide (t.pc.toNat = t.sp.toNat)) = true) := by
  decide

end Sys2Proof.Tests
end

section
/-! The lemmas one step's claims share: which step runs from a state, and that a step either raises or
completes the instruction decoded. -/

namespace Sys2Proof.Machine

/-- From a `pc` above 253 a running machine raises AddressRangeError (40_fetch_decode_dispatch.md R74). -/
theorem step_of_pc_ge {s : State} (hr : s.run = .running) (hp : 254 ≤ s.pc.toNat) :
    step s = .next (s.raise .addressRange
      (if s.pc.toNat ≤ 255 then some s.opcodeAt else none)
      (if s.pc.toNat ≤ 255 then 256 else s.pc.toNat)) := by
  simp only [step_of_running hr, cycle, fetch_of_ge hp]

/-- An opcode byte outside the nine raises DecodeError (60_exceptions.md R131). -/
theorem step_of_illegal {s : State} (hr : s.run = .running) (hp : s.pc.toNat ≤ 253)
    (hop : s.opcodeAt ∉ legalOpcodes) :
    step s = .next (s.raise .decodeError (some s.opcodeAt) s.pc.toNat) := by
  obtain ⟨e, he⟩ := (decode_eq_error_iff s.opcodeAt s.slotA s.slotB).mpr hop
  simp only [step_of_running hr, cycle, fetch_of_le hp, he]

/-- An instruction that stands at `pc` is the one whose handler runs. -/
theorem step_of_opcodeOf {s : State} {i : Instr} (hr : s.run = .running) (hp : s.pc.toNat ≤ 253)
    (hop : s.opcodeAt = opcodeOf i) (hsl : slotsOf i s.slotA s.slotB) : step s = exec i s :=
  step_of_decode hr hp ((decode_eq_ok_iff _ _ _ _).mpr ⟨hop, hsl⟩)

/-- A completed handler of a running machine faults nothing. -/
theorem completed_run_ne_faulted (i : Instr) (ra rb : RegIdx) {s : State} (hr : s.run = .running) :
    (completed i ra rb s).run ≠ .faulted := by
  rw [(completed_fault_run i ra rb s).2, hr]
  split <;> decide

/-- A step raises an exception, or completes the instruction that stands at `pc`. -/
theorem step_raises_or_completes {s t : State} (h : step s = .next t) :
    (∃ c op addr, t = s.raise c op addr) ∨
    (s.run = .running ∧ ∃ i ra rb, decode s.opcodeAt s.slotA s.slotB = .ok i ∧
      operandsAre i ra rb ∧ t = completed i ra rb s) := by
  obtain ⟨hr, ⟨-, ht⟩ | ⟨-, -, ht⟩ | ⟨i, -, hop, hsl, he⟩⟩ := step_cases h
  · exact .inl ⟨_, _, _, ht⟩
  · exact .inl ⟨_, _, _, ht⟩
  · obtain ⟨ra, rb, ho, hc⟩ | ⟨-, hf⟩ := exec_cases i s
    · exact .inr ⟨hr, i, ra, rb, (decode_eq_ok_iff _ _ _ _).mpr ⟨hop, hsl⟩, ho,
        Host.Outcome.next.inj (he.symm.trans hc)⟩
    · exact .inl ⟨_, _, _, Host.Outcome.next.inj (he.symm.trans hf)⟩

end Sys2Proof.Machine
end

section
/-! The output (10_state.md R20): what an instruction appends, and that neither the output nor the fault
record steers a step. -/

namespace Sys2Proof.Machine

/-- What a completed instruction appends to the output: PRN its register's value, any other nothing. -/
def emitted : Instr → RegIdx → State → List Byte
  | .prn _, ra, s => [s.readReg ra]
  | _, _, _ => []

theorem completed_out (i : Instr) (ra rb : RegIdx) (s : State) :
    (completed i ra rb s).out = s.out ++ emitted i ra s := by
  cases i <;> simp [completed, emitted]

theorem emitted_of_opcode_ne_prn {i : Instr} (h : opcodeOf i ≠ opPrn) (ra : RegIdx) (s : State) :
    emitted i ra s = [] := by
  cases i with
  | prn a => exact absurd rfl h
  | _ => rfl

/-- The state with another output and another fault record. -/
def State.withOutRecord (s : State) (o : List Byte) (f : Option FaultRecord) : State :=
  { s with out := o, fault := f }

/-- A handler does the same whatever the output and the record hold, and appends the same values. -/
theorem completed_withOutRecord (i : Instr) (ra rb : RegIdx) (s : State) (o : List Byte)
    (f : Option FaultRecord) :
    completed i ra rb (s.withOutRecord o f) =
      (completed i ra rb s).withOutRecord (o ++ emitted i ra s) f := by
  cases i with
  | prn a => rfl
  | _ => rw [emitted_of_opcode_ne_prn (by simp only [opcodeOf]; decide), List.append_nil]; rfl

/-- A step does the same whatever the output and the record hold, and appends the same values; a fault
writes its record over either. -/
theorem step_withOutRecord {s t : State} (h : step s = .next t) (o : List Byte)
    (f : Option FaultRecord) :
    ∃ new, t.out = s.out ++ new ∧ step (s.withOutRecord o f) =
      .next (t.withOutRecord (o ++ new) (if t.run = .faulted then t.fault else f)) := by
  obtain ⟨hr, ⟨hp, rfl⟩ | ⟨hp, hop, rfl⟩ | ⟨i, hp, hop, hsl, he⟩⟩ := step_cases h
  · exact ⟨[], by simp, by
      rw [List.append_nil]; exact step_of_pc_ge (s := s.withOutRecord o f) hr hp⟩
  · exact ⟨[], by simp, by
      rw [List.append_nil]; exact step_of_illegal (s := s.withOutRecord o f) hr hp hop⟩
  · rw [step_of_opcodeOf (s := s.withOutRecord o f) hr hp hop hsl]
    obtain ⟨ra, rb, ho, hc⟩ | ⟨hw, hf⟩ := exec_cases i s
    · obtain rfl := Host.Outcome.next.inj (he.symm.trans hc)
      refine ⟨emitted i ra s, completed_out i ra rb s, ?_⟩
      rw [exec_of_operands _ ho, if_neg (completed_run_ne_faulted i ra rb hr),
        completed_withOutRecord]
    · obtain rfl := Host.Outcome.next.inj (he.symm.trans hf)
      exact ⟨[], by simp, by
        rw [List.append_nil]; exact exec_of_not_wellFormed (s.withOutRecord o f) hw⟩

/-- A step that does not fault keeps the fault record. -/
theorem step_fault_of_run_ne_faulted {s t : State} (h : step s = .next t)
    (hn : t.run ≠ .faulted) : t.fault = s.fault := by
  obtain ⟨c, op, addr, rfl⟩ | ⟨-, i, ra, rb, -, -, rfl⟩ := step_raises_or_completes h
  · exact absurd rfl hn
  · exact (completed_fault_run i ra rb s).1

/-- A PRN that does not fault appends the value of the register it names (41_ldi_prn.md R91). -/
theorem step_prn_out {s t : State} {r : RegIdx} (h : step s = .next t) (hn : t.run ≠ .faulted)
    (hop : s.opcodeAt = opPrn) (hr : s.slotA.toNat = r.val) : t.out = s.out ++ [s.readReg r] := by
  obtain ⟨c, op, addr, rfl⟩ | ⟨-, i, ra, rb, hd, ho, rfl⟩ := step_raises_or_completes h
  · exact absurd rfl hn
  · rw [hop] at hd
    have hprn : Instr.prn s.slotA = i := Except.ok.inj hd
    subst hprn
    have hra : ra = r := Fin.ext (ho.symm.trans hr)
    subst hra
    rfl

/-- Any other cycle, and any fault, leaves the output as it was. -/
theorem step_out_unchanged {s t : State} (h : step s = .next t)
    (hc : s.opcodeAt ≠ opPrn ∨ t.run = .faulted) : t.out = s.out := by
  obtain ⟨c, op, addr, rfl⟩ | ⟨hr, i, ra, rb, hd, -, rfl⟩ := step_raises_or_completes h
  · rfl
  · have hop : s.opcodeAt ≠ opPrn := hc.resolve_right (completed_run_ne_faulted i ra rb hr)
    rw [((decode_eq_ok_iff _ _ _ _).mp hd).1] at hop
    rw [completed_out, emitted_of_opcode_ne_prn hop, List.append_nil]

/-- The output is not read: with another output the step does the same to everything else. -/
theorem step_withOut {s t : State} (h : step s = .next t) (o : List Byte) :
    ∃ o', step { s with out := o } = .next { t with out := o' } := by
  obtain ⟨new, -, hstep⟩ := step_withOutRecord h o s.fault
  have hrec : (if t.run = .faulted then t.fault else s.fault) = t.fault := by
    split
    · rfl
    · exact (step_fault_of_run_ne_faulted h ‹_›).symm
  rw [hrec] at hstep
  exact ⟨o ++ new, hstep⟩

/-- Settles O33: reset has no output, a PRN that completes appends its register, every other step leaves
the output, and no step reads it. -/
theorem outputGrowsOnlyByPrn : Obligations.OutputGrowsOnlyByPrn :=
  ⟨rfl, fun _ _ _ => step_prn_out, fun _ _ => step_out_unchanged, fun _ _ o h => step_withOut h o⟩

end Sys2Proof.Machine
end

section
/-! The opcode byte alone selects the instruction (30_encoding.md R54). -/

namespace Sys2Proof.Machine

/-- One of the nine opcode bytes decodes, with any operand bytes, to an instruction of its own. -/
theorem decode_ok_of_legal {ir : Byte} (h : ir ∈ legalOpcodes) (a b : Byte) :
    ∃ i, decode ir a b = .ok i ∧ opcodeOf i = ir := by
  cases hd : decode ir a b with
  | ok i => exact ⟨i, rfl, ((decode_eq_ok_iff ir a b i).mp hd).1.symm⟩
  | error e => exact absurd h ((decode_eq_error_iff ir a b).mp ⟨e, hd⟩)

/-- Any other byte is rejected by name, with any operand bytes (30_encoding.md R55). -/
theorem decode_unknown_of_illegal {ir : Byte} (h : ir ∉ legalOpcodes) (a b : Byte) :
    decode ir a b = .error (.unknownOpcode ir) := by
  obtain ⟨e, he⟩ := (decode_eq_error_iff ir a b).mpr h
  rw [he, decode_error_names he]

/-- Two decodings of one opcode byte answer instructions of one opcode, whatever the operand bytes. -/
theorem opcodeOf_eq_of_decode {ir a b a' b' : Byte} {i i' : Instr} (h : decode ir a b = .ok i)
    (h' : decode ir a' b' = .ok i') : opcodeOf i = opcodeOf i' :=
  ((decode_eq_ok_iff ir a b i).mp h).1.symm.trans ((decode_eq_ok_iff ir a' b' i').mp h').1

/-- Settles O8: an accepted opcode byte is the instruction's own, and exactly the bytes outside the nine
are rejected; neither reads the operand bytes. -/
theorem wholeOpcodeByteSelects : Obligations.WholeOpcodeByteSelects :=
  fun _ a b => ⟨fun h => decode_ok_of_legal h a b, fun h => decode_unknown_of_illegal h a b,
    fun _ _ _ _ => opcodeOf_eq_of_decode⟩

end Sys2Proof.Machine
end

section
/-! HLT alone ends a run in HALTED, and nothing follows it (40_fetch_decode_dispatch.md R77). -/

namespace Sys2Proof.Machine

/-- A handler that completes on a running machine halts it exactly when it is HLT's. -/
theorem completed_run_eq_halted_iff (i : Instr) (ra rb : RegIdx) {s : State}
    (hr : s.run = .running) : (completed i ra rb s).run = .halted ↔ i = .hlt := by
  rw [(completed_fault_run i ra rb s).2, hr]
  split <;> simp [*]

/-- HLT names no register, so the one fault of a handler is not HLT's, and it ends in FAULTED. -/
theorem exec_run_eq_halted_iff {i : Instr} {s t : State} (hr : s.run = .running)
    (h : exec i s = .next t) : t.run = .halted ↔ i = .hlt := by
  obtain ⟨ra, rb, -, hc⟩ | ⟨hw, hf⟩ := exec_cases i s
  · obtain rfl := Host.Outcome.next.inj (h.symm.trans hc)
    exact completed_run_eq_halted_iff i ra rb hr
  · obtain rfl := Host.Outcome.next.inj (h.symm.trans hf)
    have hne : i ≠ .hlt := by
      rintro rfl
      cases hw
    simp [hne]

/-- A fetch or decode fault ends in FAULTED, so a step that halts ran HLT's handler. -/
theorem opcodeAt_eq_opHlt_of_step_halted {s t : State} (h : step s = .next t)
    (ht : t.run = .halted) : s.opcodeAt = opHlt := by
  obtain ⟨c, op, addr, rfl⟩ | ⟨hr, i, ra, rb, hd, -, rfl⟩ := step_raises_or_completes h
  · cases ht
  · obtain rfl := (completed_run_eq_halted_iff i ra rb hr).mp ht
    exact ((decode_eq_ok_iff _ _ _ _).mp hd).1

/-- A halted machine has no next state, since every step starts from RUNNING. -/
theorem step_ne_next_of_halted {s t : State} (hs : s.run = .halted) : step s ≠ .next t := by
  intro h
  have hr : s.run = .running := (step_cases h).1
  cases hs.symm.trans hr

/-- Settles O19: by what a handler can do, what a step can do, and that a step starts from RUNNING. -/
theorem onlyHltHalts : Obligations.OnlyHltHalts :=
  ⟨fun _ _ _ => exec_run_eq_halted_iff, fun _ _ => opcodeAt_eq_opHlt_of_step_halted,
    fun _ _ => step_ne_next_of_halted⟩

end Sys2Proof.Machine
end

section
/-! The arithmetic unit's result is exact modulo 256 (42_alu.md R100). -/

namespace Sys2Proof.Machine

/-- A value already reduced modulo 256 fits a byte, so that making it one loses nothing. -/
theorem toNat_ofNat_mod_256 (n : Nat) : (BitVec.ofNat 8 (n % 256)).toNat = n % 256 := by
  rw [BitVec.toNat_ofNat]
  exact Nat.mod_mod n 256

@[simp] theorem toNat_alu_add (u v : Byte) :
    (alu .add u v).toNat = (u.toNat + v.toNat) % 256 :=
  toNat_ofNat_mod_256 (u.toNat + v.toNat)

@[simp] theorem toNat_alu_mul (u v : Byte) :
    (alu .mul u v).toNat = (u.toNat * v.toNat) % 256 :=
  toNat_ofNat_mod_256 (u.toNat * v.toNat)

/-- Settles O30: each operation is reduced over the naturals before it is made a byte. -/
theorem aluContract : Obligations.AluContract :=
  fun u v => ⟨toNat_alu_add u v, toNat_alu_mul u v⟩

end Sys2Proof.Machine
end

section
/-! The stack primitives (44_stack.md R115): push decrements then writes; pop reads then increments and
does not erase. -/

namespace Sys2Proof.Machine

/-- The byte pushed stands at the stack pointer the push leaves. -/
theorem State.read_stackPush_sp {s : State} (h : Memory.wf s.mem = true) (v : Byte) :
    Memory.read (s.stackPush v).mem (s.stackPush v).sp.toNat = v :=
  (State.read_stackPush h v _).trans (if_pos rfl)

/-- A push changes no byte but the one at the stack pointer it leaves. -/
theorem State.read_stackPush_of_ne {s : State} (h : Memory.wf s.mem = true) (v : Byte)
    {addr : Nat} (hne : addr ≠ (s.stackPush v).sp.toNat) :
    Memory.read (s.stackPush v).mem addr = Memory.read s.mem addr :=
  (State.read_stackPush h v addr).trans (if_neg hne.symm)

theorem State.toNat_sp_stackPush (s : State) (v : Byte) :
    ((s.stackPush v).sp.toNat : Int) = ((s.sp.toNat : Int) - 1) % 256 := by
  rw [State.sp_stackPush, toNat_sub_one]

theorem State.toNat_sp_incSp (s : State) : s.incSp.sp.toNat = (s.sp.toNat + 1) % 256 := by
  rw [State.sp_incSp, toNat_add_one]

theorem State.readReg_stackPush_of_ne (s : State) (v : Byte) {q : RegIdx} (hq : q ≠ 7) :
    (s.stackPush v).readReg q = s.readReg q := by
  rw [State.readReg_stackPush, State.readReg_decSp, if_neg hq]

theorem State.readReg_incSp_of_ne (s : State) {q : RegIdx} (hq : q ≠ 7) :
    s.incSp.readReg q = s.readReg q := by
  rw [State.readReg_incSp, if_neg hq]

/-- Settles O31: a push stores at the decremented stack pointer, a pop only increments it; each leaves
every register but the stack pointer. -/
theorem stackPrimitives : Obligations.StackPrimitives := by
  intro s v h
  constructor
  · exact ⟨s.toNat_sp_stackPush v, State.read_stackPush_sp h v,
      fun _ => State.read_stackPush_of_ne h v, fun _ => s.readReg_stackPush_of_ne v,
      rfl, rfl, rfl, rfl⟩
  · exact ⟨rfl, s.toNat_sp_incSp, fun _ => rfl, fun _ => s.readReg_incSp_of_ne,
      rfl, rfl, rfl, rfl⟩

end Sys2Proof.Machine
end

section
/-! RET pops the program counter (45_subroutine.md R121). -/

namespace Sys2Proof.Machine

/-- A byte keeps its value when it becomes a program counter. -/
@[simp] theorem toNat_zext9 (v : Byte) : (zext9 v).toNat = v.toNat :=
  BitVec.toNat_setWidth_of_le (by decide)

/-- RET is a pop whose byte becomes the program counter. -/
theorem exec_ret (s : State) : exec .ret s = .next (s.incSp.setPc (zext9 (s.load s.sp))) := rfl

/-- Settles O28: RET completes in every state; the pop moves only the stack pointer, and setting `pc`
keeps the value of the byte on top. -/
theorem retPopsProgramCounter : Obligations.RetPopsProgramCounter :=
  fun s => ⟨s.incSp.setPc (zext9 (s.load s.sp)), exec_ret s,
    toNat_zext9 (s.load s.sp), s.toNat_sp_incSp, fun _ => s.readReg_incSp_of_ne,
    fun _ => rfl, rfl, rfl, rfl⟩

end Sys2Proof.Machine
end

section
/-! What a handler leaves of the state it started from: where the program counter goes, and which operand
bytes and registers it reads. -/

namespace Sys2Proof.Machine

/-- No instruction has more than two operand bytes (30_encoding.md R53). -/
theorem operandCount_opcodeOf_le (i : Instr) : operandCount (opcodeOf i) ≤ 2 := by
  cases i <;> simp [opcodeOf]

/-- The natural advance `n + 1` fits the program counter's 9 bits (R76). -/
theorem toNat_naturalAdvance_opcodeOf (i : Instr) :
    (naturalAdvance (opcodeOf i)).toNat = operandCount (opcodeOf i) + 1 := by
  have := operandCount_opcodeOf_le i
  rw [naturalAdvance, BitVec.toNat_ofNat]
  omega

/-- Every handler but CALL's and RET's falls through (45_subroutine.md R122). -/
theorem completed_pc_of_not_transfer {i : Instr} (hcall : ∀ a, i ≠ .call a) (hret : i ≠ .ret)
    (ra rb : RegIdx) (s : State) :
    (completed i ra rb s).pc = s.pc + naturalAdvance (opcodeOf i) := by
  cases i with
  | call a => exact absurd rfl (hcall a)
  | ret => exact absurd rfl hret
  | _ => rfl

/-- CALL's and RET's targets are bytes, so that neither leaves memory (45_subroutine.md R122). -/
theorem completed_pc_le_of_transfer {i : Instr} (h : (∃ a, i = .call a) ∨ i = .ret)
    (ra rb : RegIdx) (s : State) : (completed i ra rb s).pc.toNat ≤ 255 := by
  have byte_le (v : Byte) : (zext9 v).toNat ≤ 255 := by
    rw [toNat_zext9]
    omega
  obtain ⟨a, rfl⟩ | rfl := h
  · exact byte_le _
  · exact byte_le _

/-- From 253 at most no handler takes the program counter above 256 (10_state.md R15). -/
theorem completed_pc_le (i : Instr) (ra rb : RegIdx) {s : State} (hp : s.pc.toNat ≤ 253) :
    (completed i ra rb s).pc.toNat ≤ 256 := by
  by_cases htr : (∃ a, i = .call a) ∨ i = .ret
  · exact (completed_pc_le_of_transfer htr ra rb s).trans (by decide)
  · obtain ⟨hcall, hret⟩ := not_or.mp htr
    have hle := operandCount_opcodeOf_le i
    rw [completed_pc_of_not_transfer (fun a e => hcall ⟨a, e⟩) hret, BitVec.toNat_add,
      toNat_naturalAdvance_opcodeOf]
    omega

/-- Every instruction but HLT and RET has a register index in operand a (60_exceptions.md R133). -/
theorem opcodeOf_mem_indexed (i : Instr) :
    opcodeOf i ∈ indexedOpcodes ↔ i ≠ .hlt ∧ i ≠ .ret := by
  cases i <;> simp only [opcodeOf, ne_eq, reduceCtorEq, not_true, not_false_eq_true] <;> decide

/-- ADD and MUL alone have a register index in operand b (60_exceptions.md R133). -/
theorem opcodeOf_mem_two_indexed (i : Instr) :
    opcodeOf i ∈ [0xA0#8, 0xA2#8] ↔ (∃ a b, i = .add a b) ∨ ∃ a b, i = .mul a b := by
  cases i <;> simp [opcodeOf] <;> decide

/-- The bytes at `pc` hold a bad register index exactly when the instruction they decode to is not well
formed (60_exceptions.md R133). -/
theorem badIndex_iff_not_wellFormed {s : State} {i : Instr} (hop : s.opcodeAt = opcodeOf i)
    (hsl : slotsOf i s.slotA s.slotB) : s.badIndex ↔ i.wellFormed = false := by
  simp only [State.badIndex, hop, opcodeOf_mem_indexed, opcodeOf_mem_two_indexed]
  cases i with
  | ldi a imm =>
    obtain ⟨rfl, -⟩ := hsl
    simp [Instr.wellFormed, namesRegister]
  | prn a | push a | pop a | call a =>
    obtain rfl := hsl
    simp [Instr.wellFormed, namesRegister]
  | add a b | mul a b =>
    obtain ⟨rfl, rfl⟩ := hsl
    simp [Instr.wellFormed, namesRegister]
    omega
  | hlt | ret => simp [Instr.wellFormed]

end Sys2Proof.Machine
end

section
/-! Every step keeps the invariant (10_state.md sections 4, 6, 7; 60_exceptions.md sections 1 and 4). -/

namespace Sys2Proof.Machine

/-- A running machine has no fault record (10_state.md R18). -/
theorem StateInv.fault_eq_none {s : State} (h : StateInv s) (hr : s.run = .running) :
    s.fault = none := by
  have hrec : ¬ s.fault.isSome = true := fun hs => by
    cases hr.symm.trans (h.recordIffFaulted.mpr hs)
  simpa using hrec

/-- Raising an exception keeps the invariant when the record says what stands at `pc`: only `run` and the
record change (60_exceptions.md R137). -/
theorem stateInv_raise {s : State} (h : StateInv s) {c : Cause} {op : Option Byte} {addr : Nat}
    (he : Explains s { cause := c, opcode := op, addr := addr }) : StateInv (s.raise c op addr) where
  memCanonical := h.memCanonical
  pcReach := h.pcReach
  recordIffFaulted := by simp
  recordExplains := by
    rintro r ⟨⟩
    exact he
  haltedPastHlt := by rintro ⟨⟩

/-- A handler that completes keeps the invariant: no record appears, and HLT alone halts, one past its
own byte. -/
theorem stateInv_completed {s : State} {i : Instr} (h : StateInv s) (hr : s.run = .running)
    (hp : s.pc.toNat ≤ 253) (hop : s.opcodeAt = opcodeOf i) (ra rb : RegIdx) :
    StateInv (completed i ra rb s) where
  memCanonical := completed_wf i ra rb h.memCanonical
  pcReach := completed_pc_le i ra rb hp
  recordIffFaulted := by
    simp [completed_run_ne_faulted i ra rb hr, (completed_fault_run i ra rb s).1,
      h.fault_eq_none hr]
  recordExplains := by
    simp [(completed_fault_run i ra rb s).1, h.fault_eq_none hr]
  haltedPastHlt := by
    intro hh
    obtain rfl := (completed_run_eq_halted_iff i ra rb hr).mp hh
    have hpc : (s.pc + naturalAdvance opHlt).toNat = s.pc.toNat + 1 := by
      have := toNat_naturalAdvance_opcodeOf .hlt
      simp only [opcodeOf, operandCount_opHlt] at this
      rw [BitVec.toNat_add, this]
      omega
    exact ⟨s.pc.toNat, hp, hpc, hop⟩

/-- Settles O4: each fault's record is explained by the condition under which the step raises it, and a
completed handler keeps every clause. -/
theorem stepKeepsInvariant : Obligations.StepKeepsInvariant := by
  intro s t h hstep
  obtain ⟨hr, ⟨hp, rfl⟩ | ⟨hp, hop, rfl⟩ | ⟨i, hp, hop, hsl, he⟩⟩ := step_cases hstep
  · have haddr : (if s.pc.toNat ≤ 255 then 256 else s.pc.toNat) = 256 := by
      have := h.pcReach
      split <;> omega
    exact stateInv_raise h ⟨hp, rfl, haddr⟩
  · exact stateInv_raise h ⟨hp, hop, rfl, rfl⟩
  · obtain ⟨ra, rb, -, hc⟩ | ⟨hw, hf⟩ := exec_cases i s
    · obtain rfl := Host.Outcome.next.inj (he.symm.trans hc)
      exact stateInv_completed h hr hp hop ra rb
    · obtain rfl := Host.Outcome.next.inj (he.symm.trans hf)
      have hbad := (badIndex_iff_not_wellFormed hop hsl).mpr hw
      exact stateInv_raise h ⟨hp, hbad, congrArg some hop.symm, rfl⟩

end Sys2Proof.Machine
end

section
/-! Decoder and encoder agree (30_encoding.md R50, R53, R58). -/

namespace Sys2Proof.Machine

/-- The operand bytes of an instruction, at ascending addresses after its opcode byte (R50). -/
def operandBytes : Instr → List Byte
  | .ldi a imm => [a, imm]
  | .prn a => [a]
  | .add a b => [a, b]
  | .mul a b => [a, b]
  | .hlt => []
  | .push a => [a]
  | .pop a => [a]
  | .call a => [a]
  | .ret => []

theorem encode_eq_cons (i : Instr) : encode i = opcodeOf i :: operandBytes i := by
  cases i <;> rfl

theorem length_operandBytes (i : Instr) :
    (operandBytes i).length = operandCount (opcodeOf i) := by
  cases i <;> simp [operandBytes, opcodeOf]

/-- A byte list starts with an instruction's operand bytes exactly when it is long enough for them and its
first two bytes, as slots, hold the operands. -/
theorem slotsOf_iff_take (i : Instr) (l : List Byte) :
    operandCount (opcodeOf i) ≤ l.length ∧ slotsOf i (l.getD 0 0#8) (l.getD 1 0#8) ↔
      l.take (operandCount (opcodeOf i)) = operandBytes i := by
  cases i with
  | ldi a b | add a b | mul a b =>
    rcases l with _ | ⟨x, _ | ⟨y, l⟩⟩ <;>
      simp [opcodeOf, operandBytes, slotsOf, eq_comm (a := a), eq_comm (a := b)]
  | prn a | push a | pop a | call a =>
    rcases l with _ | ⟨x, l⟩ <;>
      simp [opcodeOf, operandBytes, slotsOf, eq_comm (a := a)]
  | hlt | ret => simp [opcodeOf, operandBytes, slotsOf]

/-- The list decoder reads an instruction exactly when the cycle's decoder reads it from the first three
bytes and the list holds all of its `n + 1` bytes (R50). -/
theorem decodeBytes_cons_eq_ok_iff (ir : Byte) (l : List Byte) (i : Instr) (rest : List Byte) :
    decodeBytes (ir :: l) = .ok (i, rest) ↔
      decode ir (l.getD 0 0#8) (l.getD 1 0#8) = .ok i ∧ operandCount ir ≤ l.length ∧
        l.drop (operandCount ir) = rest := by
  simp only [decodeBytes]
  cases decode ir (l.getD 0 0#8) (l.getD 1 0#8) with
  | error e => simp
  | ok j =>
    by_cases hlen : l.length < operandCount ir
    · simp [hlen]
    · simp [hlen, Nat.le_of_not_lt hlen]

/-- Settles O7: what the slots hold determines the operand bytes at the head of the list, and the rest is
what stands after them. -/
theorem decodeEncodeAgree : Obligations.DecodeEncodeAgree := by
  intro bytes i rest
  rw [encode_eq_cons, List.cons_append]
  cases bytes with
  | nil => simp [decodeBytes]
  | cons ir l =>
    have happ : l = operandBytes i ++ rest ↔
        l.take (operandCount (opcodeOf i)) = operandBytes i ∧
          l.drop (operandCount (opcodeOf i)) = rest := by
      rw [← length_operandBytes]
      constructor
      · rintro rfl
        simp
      · rintro ⟨htake, hdrop⟩
        exact (List.take_append_drop _ l).symm.trans (congrArg₂ (· ++ ·) htake hdrop)
    rw [decodeBytes_cons_eq_ok_iff, decode_eq_ok_iff, List.cons.injEq, happ, ← slotsOf_iff_take]
    constructor
    · rintro ⟨⟨rfl, hsl⟩, hlen, hrest⟩
      exact ⟨rfl, ⟨hlen, hsl⟩, hrest⟩
    · rintro ⟨rfl, ⟨hlen, hsl⟩, hrest⟩
      exact ⟨⟨rfl, hsl⟩, hlen, hrest⟩

/-- The decoder reads slot a only for an instruction with an operand, slot b only for one with two
(30_encoding.md R57). -/
theorem slotsOf_congr {i : Instr} {a b a' b' : Byte}
    (ha : 1 ≤ operandCount (opcodeOf i) → a = a') (hb : 2 ≤ operandCount (opcodeOf i) → b = b')
    (h : slotsOf i a b) : slotsOf i a' b' := by
  cases i with
  | ldi | add | mul => exact ⟨h.1.trans (ha (by simp [opcodeOf])), h.2.trans (hb (by simp [opcodeOf]))⟩
  | prn | push | pop | call => exact Eq.trans h (ha (by simp [opcodeOf]))
  | hlt | ret => trivial

theorem decode_congr {ir a b a' b' : Byte} (hir : ir ∈ legalOpcodes)
    (ha : 1 ≤ operandCount ir → a = a') (hb : 2 ≤ operandCount ir → b = b') :
    decode ir a b = decode ir a' b' := by
  obtain ⟨i, hd, rfl⟩ := decode_ok_of_legal hir a b
  have hsl := ((decode_eq_ok_iff _ _ _ _).mp hd).2
  rw [hd, (decode_eq_ok_iff _ _ _ _).mpr ⟨rfl, slotsOf_congr ha hb hsl⟩]

/-- Settles O10: an illegal opcode is rejected by its own byte alone; a legal one reads as many slots as
its operand count says. -/
theorem unusedSlotsIgnored : Obligations.UnusedSlotsIgnored := by
  intro ir a b a' b'
  by_cases hir : ir ∈ legalOpcodes
  · constructor
    · intro h
      have h0 : operandCount ir = 0 := h.resolve_right (not_not_intro hir)
      exact decode_congr hir (by omega) (by omega)
    · intro h1
      exact decode_congr hir (fun _ => rfl) (by omega)
  · have herr (x y x' y' : Byte) : decode ir x y = decode ir x' y' :=
      (decode_unknown_of_illegal hir x y).trans (decode_unknown_of_illegal hir x' y').symm
    exact ⟨fun _ => herr a b a' b', fun _ => herr a b a b'⟩

/-- Settles O9: each literal of R53 is an opcode byte of its own, and the three neighbours are not among
the nine. -/
theorem opcodeBytesDecode : Obligations.OpcodeBytesDecode := by
  intro a b
  exact ⟨rfl, rfl, rfl, rfl, rfl, rfl, rfl, rfl, rfl, decode_unknown_of_illegal (by decide) a b,
    decode_unknown_of_illegal (by decide) a b, decode_unknown_of_illegal (by decide) a b⟩

end Sys2Proof.Machine
end

section
/-! Neither the output nor the fault record steers a step (10_state.md R18, R20). -/

namespace Sys2Proof.Machine

/-- Settles O34: by what a step does from the state with another output and another record. -/
theorem outputAndRecordNeverRead : Obligations.OutputAndRecordNeverRead := by
  intro s t o f h
  obtain ⟨new, hout, hstep⟩ := step_withOutRecord h o f
  exact ⟨_, new, hstep, rfl, rfl, rfl, rfl, hout, rfl, fun ht => if_pos ht,
    fun ht => ⟨step_fault_of_run_ne_faulted h ht, if_neg ht⟩⟩

end Sys2Proof.Machine
end

section
/-! The cycle: when a step exists, what it runs, and when and how it faults
(40_fetch_decode_dispatch.md R70, R71, R74; 60_exceptions.md R130 to R137). -/

namespace Sys2Proof.Machine

/-- Settles O11. -/
theorem stepRunsDecodedInstruction : Obligations.StepRunsDecodedInstruction :=
  fun _ _ => step_of_decode

/-- Every handler answers a next state: it completes or raises. -/
theorem exec_answers (i : Instr) (s : State) : ∃ t, exec i s = .next t := by
  obtain ⟨ra, rb, -, hc⟩ | ⟨-, hf⟩ := exec_cases i s
  · exact ⟨_, hc⟩
  · exact ⟨_, hf⟩

/-- A running machine always has a next state. -/
theorem step_answers {s : State} (hr : s.run = .running) : ∃ t, step s = .next t := by
  by_cases hp : s.pc.toNat ≤ 253
  · by_cases hop : s.opcodeAt ∈ legalOpcodes
    · obtain ⟨i, hd, -⟩ := decode_ok_of_legal hop s.slotA s.slotB
      rw [step_of_decode hr hp hd]
      exact exec_answers i s
    · exact ⟨_, step_of_illegal hr hp hop⟩
  · exact ⟨_, step_of_pc_ge hr (by omega)⟩

theorem step_of_halted {s : State} (h : s.run = .halted) : step s = .fault .halted := by
  simp only [step, h]

theorem step_of_faulted {s : State} (h : s.run = .faulted) : step s = .fault .faulted := by
  simp only [step, h]

/-- Settles O13: a step starts only from RUNNING, where one always exists. -/
theorem stepExistsExactlyWhenRunning : Obligations.StepExistsExactlyWhenRunning :=
  fun _ => ⟨⟨fun ⟨_, h⟩ => (step_cases h).1, step_answers⟩, step_of_halted, step_of_faulted⟩

/-- Settles O14. -/
theorem fetchBeyondMemoryFaults : Obligations.FetchBeyondMemoryFaults :=
  fun _ => step_of_pc_ge

/-- Settles O15. -/
theorem unknownOpcodeFaults : Obligations.UnknownOpcodeFaults :=
  fun _ => step_of_illegal

/-- An operand byte above 7 names no register. -/
theorem namesRegister_eq_false {a : Byte} (h : 8 ≤ a.toNat) : namesRegister a = false :=
  decide_eq_false (Nat.not_lt.mpr h)

/-- Settles O16: an instruction with such an operand is not well formed, in either operand of ADD and
MUL. -/
theorem badRegisterIndexFaults : Obligations.BadRegisterIndexFaults := by
  intro s a b ha
  have hbad := namesRegister_eq_false ha
  have hfst : (namesRegister a && namesRegister b) = false := by rw [hbad, Bool.false_and]
  have hsnd : (namesRegister b && namesRegister a) = false := by rw [hbad, Bool.and_false]
  exact ⟨exec_of_not_wellFormed (i := .ldi a b) s hbad, exec_of_not_wellFormed (i := .prn a) s hbad,
    exec_of_not_wellFormed (i := .add a b) s hfst, exec_of_not_wellFormed (i := .add b a) s hsnd,
    exec_of_not_wellFormed (i := .mul a b) s hfst, exec_of_not_wellFormed (i := .mul b a) s hsnd,
    exec_of_not_wellFormed (i := .push a) s hbad, exec_of_not_wellFormed (i := .pop a) s hbad,
    exec_of_not_wellFormed (i := .call a) s hbad⟩

/-- Settles O17: a step that does not raise completes a handler, which does not end in FAULTED. -/
theorem faultsArePrecise : Obligations.FaultsArePrecise := by
  intro s t h ht
  obtain ⟨c, op, addr, rfl⟩ | ⟨hr, i, ra, rb, -, -, rfl⟩ := step_raises_or_completes h
  · exact ⟨_, rfl⟩
  · exact absurd ht (completed_run_ne_faulted i ra rb hr)

/-- A handler with its register operands in place is well formed. -/
theorem wellFormed_of_operands {i : Instr} {ra rb : RegIdx} (ho : operandsAre i ra rb) :
    i.wellFormed = true :=
  (wellFormed_iff i).mpr ⟨ra, rb, ho⟩

/-- Settles O18: the three ways to raise are the three conditions in their order, and a completed handler
meets none of them. -/
theorem faultExactlyWhenSpecified : Obligations.FaultExactlyWhenSpecified := by
  intro s t h
  obtain ⟨hr, ⟨hp, rfl⟩ | ⟨hp, hop, rfl⟩ | ⟨i, hp, hop, hsl, he⟩⟩ := step_cases h
  · refine ⟨iff_of_true rfl (.inl hp), ?_⟩
    rintro r - ⟨⟩
    exact (if_pos hp).symm
  · have hpc : ¬ 254 ≤ s.pc.toNat := by omega
    refine ⟨iff_of_true rfl (.inr (.inl hop)), ?_⟩
    rintro r - ⟨⟩
    rw [if_neg hpc, if_pos hop]
  · have hpc : ¬ 254 ≤ s.pc.toNat := by omega
    have hlegal : ¬ s.opcodeAt ∉ legalOpcodes := not_not_intro (hop ▸ opcodeOf_mem_legal i)
    have hbad := badIndex_iff_not_wellFormed hop hsl
    obtain ⟨ra, rb, ho, hc⟩ | ⟨hw, hf⟩ := exec_cases i s
    · obtain rfl := Host.Outcome.next.inj (he.symm.trans hc)
      have hrun := completed_run_ne_faulted i ra rb hr
      have hgood : ¬ s.badIndex := by
        rw [hbad, wellFormed_of_operands ho]
        decide
      exact ⟨iff_of_false hrun (by simp only [hpc, hlegal, hgood, or_false, not_false_eq_true]),
        fun r hr' => absurd hr' hrun⟩
    · obtain rfl := Host.Outcome.next.inj (he.symm.trans hf)
      refine ⟨iff_of_true rfl (.inr (.inr (hbad.mpr hw))), ?_⟩
      rintro r - ⟨⟩
      rw [if_neg hpc, if_neg hlegal]

end Sys2Proof.Machine
end

section
/-! A word placed at `pc` is what the next step runs (the model's `withFetchWord`, log 14). -/

namespace Sys2Proof.Machine

/-- What a read sees of a placed word: its three bytes from `pc` on, every other address as before. -/
theorem State.read_withFetchWord {s : State} (h : Memory.wf s.mem = true) (hp : s.pc.toNat ≤ 253)
    (nbits w addr : Nat) :
    Memory.read (s.withFetchWord nbits w).mem addr =
      if s.pc.toNat ≤ addr ∧ addr < s.pc.toNat + 3 then tableByte nbits w (addr - s.pc.toNat)
      else Memory.read s.mem addr := by
  have hfit : s.pc.toNat + (tableBytes nbits w).length ≤ Config.memCells := by
    simp only [tableBytes, List.length_cons, List.length_nil, Config.memCells]
    omega
  refine (State.read_placeBytes h s.pc.toNat (tableBytes nbits w) hfit addr).trans ?_
  by_cases hin : s.pc.toNat ≤ addr ∧ addr < s.pc.toNat + 3
  · obtain ⟨k, rfl⟩ := Nat.exists_eq_add_of_le hin.1
    have hk : k = 0 ∨ k = 1 ∨ k = 2 := by omega
    obtain rfl | rfl | rfl := hk <;> simp [tableBytes]
  · exact (if_neg hin).trans (if_neg hin).symm

/-- Settles O12: the three bytes the cycle reads are the word's, and placing it changes nothing but
memory there. -/
theorem placedWordRunsNext : Obligations.PlacedWordRunsNext := by
  intro s nbits w i h hr hp hd
  obtain ⟨hx, hpc, hrun, hfault, hout⟩ := s.placeBytes_fields s.pc.toNat (tableBytes nbits w)
  have hread := State.read_withFetchWord h hp nbits w
  have hbyte (k : Nat) (hk : k < 3) :
      Memory.read (s.withFetchWord nbits w).mem ((s.withFetchWord nbits w).pc.toNat + k) =
        tableByte nbits w k := by
    rw [show (s.withFetchWord nbits w).pc = s.pc from hpc, hread, if_pos (by omega),
      Nat.add_sub_cancel_left]
  have hdec : decode (tableByte nbits w 0) (tableByte nbits w 1) (tableByte nbits w 2) = .ok i := by
    unfold decodeTableWord at hd
    revert hd
    cases decode (tableByte nbits w 0) (tableByte nbits w 1) (tableByte nbits w 2) with
    | error e => rintro ⟨⟩
    | ok j => rintro ⟨⟩; rfl
  have hslots : decode (s.withFetchWord nbits w).opcodeAt (s.withFetchWord nbits w).slotA
      (s.withFetchWord nbits w).slotB = .ok i := by
    rw [State.opcodeAt, State.slotA, State.slotB, hbyte 1 (by decide), hbyte 2 (by decide),
      ← Nat.add_zero (s.withFetchWord nbits w).pc.toNat, hbyte 0 (by decide), hdec]
  refine ⟨step_of_decode (hrun.trans hr) (hpc ▸ hp) hslots, hx, hpc, hrun, hfault, hout, ?_⟩
  intro addr haddr
  rw [hread, if_neg (by omega)]

end Sys2Proof.Machine
end

section
/-! Reset, launch and whole runs (10_state.md R23; 70_reset_and_hazards.md R151, R158). -/

namespace Sys2Proof.Machine

theorem State.readReg_reset_of_ne {r : RegIdx} (hr : r ≠ 7) : State.reset.readReg r = 0#8 := by
  revert r
  decide

/-- Settles O1. -/
theorem resetStateAsSpecified : Obligations.ResetStateAsSpecified :=
  ⟨rfl, fun _ => State.readReg_reset_of_ne, rfl, fun _ => rfl, rfl, rfl, rfl⟩

/-- A running machine with canonical memory, `pc` in reach and no record has the invariant: the other
clauses speak of a stopped machine. -/
theorem stateInv_of_running {s : State} (hwf : Memory.wf s.mem = true) (hpc : s.pc.toNat ≤ 256)
    (hr : s.run = .running) (hf : s.fault = none) : StateInv s where
  memCanonical := hwf
  pcReach := hpc
  recordIffFaulted := by simp [hr, hf]
  recordExplains := by simp [hf]
  haltedPastHlt := by simp [hr]

/-- Settles O2. -/
theorem resetSatisfiesInvariant : Obligations.ResetSatisfiesInvariant :=
  stateInv_of_running State.reset_mem_wf (by decide) rfl rfl

theorem launch_of_le {image : List Byte} (h : image.length ≤ 256) :
    launch image = .next (State.reset.placeBytes Config.loadBase image) :=
  if_pos h

theorem launch_of_gt {image : List Byte} (h : 256 < image.length) :
    launch image = .refused (.imageTooLong image.length) :=
  if_neg (Nat.not_le.mpr h)

/-- A launched memory reads the image at its addresses and 0 everywhere else (20_memory.md R44). -/
theorem read_launched {image : List Byte} (h : image.length ≤ 256) (k : Nat) :
    Memory.read (State.reset.placeBytes Config.loadBase image).mem k = image.getD k 0#8 := by
  have hfit : Config.loadBase + image.length ≤ Config.memCells := by
    simpa [Config.loadBase, Config.memCells] using h
  rw [State.read_placeBytes State.reset_mem_wf _ _ hfit]
  by_cases hk : k < image.length
  · simp [Config.loadBase, hk]
  · rw [if_neg (by simpa [Config.loadBase] using hk), List.getD_eq_default _ _ (Nat.le_of_not_lt hk)]
    rfl

/-- The machine a launch starts has the invariant: loading changes memory alone and keeps it
canonical. -/
theorem stateInv_launched (image : List Byte) :
    StateInv (State.reset.placeBytes Config.loadBase image) := by
  obtain ⟨-, hpc, hrun, hfault, -⟩ := State.reset.placeBytes_fields Config.loadBase image
  exact stateInv_of_running (State.placeBytes_wf State.reset_mem_wf _ _) (by rw [hpc]; decide)
    hrun hfault

/-- Settles O3. -/
theorem launchPlacesImage : Obligations.LaunchPlacesImage := by
  intro image
  refine ⟨fun h => ?_, launch_of_gt⟩
  obtain ⟨hx, hpc, hrun, hfault, hout⟩ := State.reset.placeBytes_fields Config.loadBase image
  exact ⟨_, launch_of_le h, stateInv_launched image, read_launched h, hx, hpc, hrun, hfault, hout⟩

/-- A run of `k + 1` steps is a step and then a run of `k`. -/
theorem core_run_of_step {s u : State} (h : step s = .next u) (k : Nat) :
    core.run (k + 1) s = core.run k u := by
  have hcore : core.step s = .next u := h
  simp only [Host.Core.run, hcore]

theorem core_run_of_step_fault {s : State} {r : Fault} (h : step s = .fault r) (k : Nat) :
    core.run (k + 1) s = .fault r := by
  have hcore : core.step s = .fault r := h
  simp only [Host.Core.run, hcore]

/-- No step answers a refusal: a running machine has a next state, a stopped one a named stop. -/
theorem step_ne_refused (s : State) (r : Refusal) : step s ≠ .refused r := by
  cases hr : s.run with
  | running =>
    obtain ⟨t, ht⟩ := step_answers hr
    simp [ht]
  | halted => simp [step_of_halted hr]
  | faulted => simp [step_of_faulted hr]

/-- Settles O6: a refusal would have to come from a step. -/
theorem noRunIsRefused : Obligations.NoRunIsRefused := by
  intro s k r
  induction k generalizing s with
  | zero => rintro ⟨⟩
  | succ k ih =>
    cases hu : step s with
    | next u =>
      rw [core_run_of_step hu]
      exact ih u
    | fault e =>
      rw [core_run_of_step_fault hu]
      rintro ⟨⟩
    | refused e => exact absurd hu (step_ne_refused s e)

/-- What every step keeps holds after any number of steps. -/
theorem run_keeps {P : State → Prop} (hstep : ∀ s t, P s → step s = .next t → P t) (k : Nat)
    {s t : State} (hs : P s) (h : core.run k s = .next t) : P t := by
  induction k generalizing s with
  | zero =>
    obtain rfl : s = t := Host.Outcome.next.inj h
    exact hs
  | succ k ih =>
    cases hu : step s with
    | next u => exact ih (hstep s u hs hu) ((core_run_of_step hu k).symm.trans h)
    | fault e => cases (core_run_of_step_fault hu k).symm.trans h
    | refused e => exact absurd hu (step_ne_refused s e)

/-- Settles O5: the launched state has the invariant and every step keeps it. -/
theorem launchedRunKeepsInvariant : Obligations.LaunchedRunKeepsInvariant := by
  intro image s t k hl h
  by_cases hlen : image.length ≤ 256
  · obtain rfl := Host.Outcome.next.inj ((launch_of_le hlen).symm.trans hl)
    exact run_keeps stepKeepsInvariant k (stateInv_launched image) h
  · cases (launch_of_gt (Nat.lt_of_not_le hlen)).symm.trans hl

end Sys2Proof.Machine
end

section
/-! What the host reads after a run: the exit status and the rendered output (60_exceptions.md R148;
41_ldi_prn.md R92). -/

namespace Sys2Proof.Machine

/-- Settles O43: the status tells the three run states apart. -/
theorem exitStatusOfRun : Obligations.ExitStatusOfRun := by
  intro s
  cases hr : s.run <;> simp [State.exitStatus, hr]

/-- The decimal numeral of a positive number does not start with 0. -/
theorem head?_toDigits_ne_zero {n : Nat} (hn : 0 < n) : (Nat.toDigits 10 n).head? ≠ some '0' := by
  induction n using Nat.base_induction 10 (by decide) with
  | single m hm =>
    rw [Nat.toDigits_of_lt_base hm]
    simpa using hn.ne'
  | digit m k hk hm ih =>
    rw [← Nat.toDigits_append_toDigits (by decide) hm hk,
      List.head?_append_of_ne_nil _ Nat.toDigits_ne_nil]
    exact ih hm

/-- Only the numeral of 0 starts with the digit 0 (R92, no leading zeros). -/
theorem toDigits_eq_of_head?_eq_zero {n : Nat} (h : (Nat.toDigits 10 n).head? = some '0') :
    Nat.toDigits 10 n = ['0'] := by
  obtain rfl | hn := Nat.eq_zero_or_pos n
  · exact Nat.toDigits_zero 10
  · exact absurd h (head?_toDigits_ne_zero hn)

/-- Settles O42: the library's decimal numeral has the five properties, and rendering is line by line. -/
theorem outputRendersAsDecimalLines : Obligations.OutputRendersAsDecimalLines := by
  refine ⟨fun v => ?_, fun s h => ?_, fun s v => ?_⟩
  · exact ⟨Nat.toDigits 10 v.toNat, rfl, Nat.toDigits_ne_nil,
      fun _ => Nat.isDigit_of_mem_toDigits (by decide) (by decide), Nat.ofDigitChars_ten_toDigits,
      toDigits_eq_of_head?_eq_zero⟩
  · rw [State.rendered, h, List.flatMap_nil]
  · simp only [State.rendered, State.output_out, List.flatMap_append, List.flatMap_singleton]

end Sys2Proof.Machine
end

section
/-! Each instruction completes: its result and its frame (41_ldi_prn.md, 42_alu.md, 43_halt.md, 44_stack.md,
45_subroutine.md). -/

namespace Sys2Proof.Machine

/-! The natural advance of the instructions that fall through (40_fetch_decode_dispatch.md R76). -/

@[simp] theorem naturalAdvance_opLdi : naturalAdvance opLdi = 3#9 := by decide
@[simp] theorem naturalAdvance_opPrn : naturalAdvance opPrn = 2#9 := by decide
@[simp] theorem naturalAdvance_opAdd : naturalAdvance opAdd = 3#9 := by decide
@[simp] theorem naturalAdvance_opMul : naturalAdvance opMul = 3#9 := by decide
@[simp] theorem naturalAdvance_opHlt : naturalAdvance opHlt = 1#9 := by decide
@[simp] theorem naturalAdvance_opPush : naturalAdvance opPush = 2#9 := by decide
@[simp] theorem naturalAdvance_opPop : naturalAdvance opPop = 2#9 := by decide

/-! What each handler with register operands answers. -/

theorem exec_ldi {a : Byte} {r : RegIdx} (ha : a.toNat = r.val) (imm : Byte) (s : State) :
    exec (.ldi a imm) s = .next ((s.writeReg r imm.toNat).advance opLdi) :=
  exec_of_operands (i := .ldi a imm) (rb := r) s ha

theorem exec_prn {a : Byte} {r : RegIdx} (ha : a.toNat = r.val) (s : State) :
    exec (.prn a) s = .next ((s.output (s.readReg r)).advance opPrn) :=
  exec_of_operands (i := .prn a) (rb := r) s ha

theorem exec_add {a b : Byte} {ra rb : RegIdx} (ha : a.toNat = ra.val) (hb : b.toNat = rb.val)
    (s : State) : exec (.add a b) s = .next ((s.aluInto .add ra rb).advance opAdd) :=
  exec_of_operands (i := .add a b) s ⟨ha, hb⟩

theorem exec_mul {a b : Byte} {ra rb : RegIdx} (ha : a.toNat = ra.val) (hb : b.toNat = rb.val)
    (s : State) : exec (.mul a b) s = .next ((s.aluInto .mul ra rb).advance opMul) :=
  exec_of_operands (i := .mul a b) s ⟨ha, hb⟩

/-- PUSH with a register operand is a push of the register as the decrement leaves it. -/
theorem exec_push {a : Byte} {r : RegIdx} (ha : a.toNat = r.val) (s : State) :
    exec (.push a) s = .next ((s.stackPush (s.decSp.readReg r)).advance opPush) :=
  exec_of_operands (i := .push a) (rb := r) s ha

/-- POP with a register operand is a load from the stack and then the increment. -/
theorem exec_pop {a : Byte} {r : RegIdx} (ha : a.toNat = r.val) (s : State) :
    exec (.pop a) s = .next ((s.writeReg r (s.load s.sp).toNat).incSp.advance opPop) :=
  exec_of_operands (i := .pop a) (rb := r) s ha

/-- CALL with a register operand is a push of the return address and then the jump. -/
theorem exec_call {a : Byte} {r : RegIdx} (ha : a.toNat = r.val) (s : State) :
    exec (.call a) s =
      .next ((s.stackPush s.returnAddress).setPc (zext9 (s.decSp.readReg r))) :=
  exec_of_operands (i := .call a) (rb := r) s ha

theorem State.readReg_writeReg_of_ne (s : State) {r q : RegIdx} (hq : q ≠ r) (v : Int) :
    (s.writeReg r v).readReg q = s.readReg q := by
  rw [State.readReg_writeReg, if_neg hq.symm]

theorem State.readReg_aluInto_of_ne (s : State) (op : AluOp) {ra q : RegIdx} (rb : RegIdx)
    (hq : q ≠ ra) : (s.aluInto op ra rb).readReg q = s.readReg q := by
  rw [State.readReg_aluInto, if_neg hq.symm]

/-- The destination of ADD and MUL holds the arithmetic unit's result. -/
theorem State.readReg_aluInto_same (s : State) (op : AluOp) (ra rb : RegIdx) :
    (s.aluInto op ra rb).readReg ra = alu op (s.readReg ra) (s.readReg rb) := by
  rw [State.readReg_aluInto, if_pos rfl]

/-- Settles O20. -/
theorem ldiLoadsImmediate : Obligations.LdiLoadsImmediate := by
  intro s a imm r ha
  refine ⟨_, exec_ldi ha imm s, ?_,
    fun q hq => s.readReg_writeReg_of_ne hq imm.toNat, rfl, fun _ => rfl, rfl, rfl, rfl⟩
  simp

/-- Settles O21. -/
theorem prnEmitsRegister : Obligations.PrnEmitsRegister := by
  intro s a r ha
  exact ⟨_, exec_prn ha s, rfl, fun _ => rfl, rfl,
    fun _ => rfl, rfl, rfl⟩

/-- Settles O22. -/
theorem addIsModulo256 : Obligations.AddIsModulo256 := by
  intro s a b ra rb ha hb
  refine ⟨_, exec_add ha hb s, ?_,
    fun q hq => s.readReg_aluInto_of_ne .add rb hq, rfl, fun _ => rfl, rfl, rfl, rfl⟩
  exact (congrArg BitVec.toNat (s.readReg_aluInto_same .add ra rb)).trans (toNat_alu_add _ _)

/-- Settles O23. -/
theorem mulIsModulo256 : Obligations.MulIsModulo256 := by
  intro s a b ra rb ha hb
  refine ⟨_, exec_mul ha hb s, ?_,
    fun q hq => s.readReg_aluInto_of_ne .mul rb hq, rfl, fun _ => rfl, rfl, rfl, rfl⟩
  exact (congrArg BitVec.toNat (s.readReg_aluInto_same .mul ra rb)).trans (toNat_alu_mul _ _)

/-- Settles O24. -/
theorem hltAdvancesThenHalts : Obligations.HltAdvancesThenHalts :=
  fun s => ⟨(s.advance opHlt).halt, rfl, rfl, rfl, fun _ => rfl, fun _ => rfl, rfl, rfl⟩

/-- A register read after the decrement: register 7 reads the new stack pointer (44_stack.md R116). -/
theorem State.readReg_decSp_eq_ite (s : State) (r : RegIdx) :
    s.decSp.readReg r = if r = 7 then s.decSp.sp else s.readReg r := by
  rw [State.readReg_decSp, State.sp_decSp]

/-- A push stores at the decremented stack pointer. -/
theorem State.read_stackPush_decSp {s : State} (h : Memory.wf s.mem = true) (v : Byte) :
    Memory.read (s.stackPush v).mem s.decSp.sp.toNat = v :=
  State.read_stackPush_sp h v

/-- Settles O25. -/
theorem pushStoresBelowStack : Obligations.PushStoresBelowStack := by
  intro s a r ha h
  have hpush := exec_push ha s
  rw [s.readReg_decSp_eq_ite r] at hpush
  generalize (if r = 7 then s.decSp.sp else s.readReg r) = v at hpush ⊢
  exact ⟨_, hpush, s.toNat_sp_stackPush v, rfl, fun _ => s.readReg_stackPush_of_ne v,
    State.read_stackPush_decSp h v, fun _ => State.read_stackPush_of_ne h v, rfl, rfl, rfl, rfl⟩

/-- What a read sees of a POP's two register writes. -/
theorem State.readReg_writeReg_incSp (s : State) (r q : RegIdx) (v : Byte) :
    (s.writeReg r v.toNat).incSp.readReg q =
      if q = 7 then (if r = 7 then v else s.sp) + 1 else if r = q then v else s.readReg q := by
  simp only [State.readReg_incSp, State.sp_writeReg, State.readReg_writeReg, ofInt_toNat]

/-- Settles O26. -/
theorem popLoadsStackTop : Obligations.PopLoadsStackTop := by
  intro s a r ha
  have hread := s.readReg_writeReg_incSp r (v := s.load s.sp)
  refine ⟨_, exec_pop ha s, fun hr => ⟨?_, ?_⟩, fun hr => ?_, fun q hq hq7 => ?_, rfl, fun _ => rfl,
    rfl, rfl, rfl⟩
  · exact (hread r).trans (by rw [if_neg hr, if_pos rfl]; rfl)
  · refine (congrArg BitVec.toNat (hread 7)).trans ?_
    rw [if_pos rfl, if_neg hr, toNat_add_one]
  · refine (congrArg BitVec.toNat (hread 7)).trans ?_
    rw [if_pos rfl, if_pos hr, toNat_add_one]
    rfl
  · exact (hread q).trans (by rw [if_neg hq7, if_neg hq.symm])

/-- At 253 or below the return address fits a byte (45_subroutine.md R120). -/
theorem State.toNat_returnAddress {s : State} (hp : s.pc.toNat ≤ 253) :
    s.returnAddress.toNat = s.pc.toNat + 2 := by
  rw [State.returnAddress, BitVec.toNat_ofNat]
  omega

/-- Settles O27. -/
theorem callPushesReturnAddress : Obligations.CallPushesReturnAddress := by
  intro s a r ha hp h
  refine ⟨_, exec_call ha s, s.toNat_sp_stackPush s.returnAddress, rfl,
    fun _ => s.readReg_stackPush_of_ne s.returnAddress, ?_,
    fun _ => State.read_stackPush_of_ne h s.returnAddress, ?_, rfl, rfl, rfl⟩
  · rw [State.setPc_mem, State.read_stackPush_decSp h, State.toNat_returnAddress hp]
  · rw [State.setPc_pc, toNat_zext9, State.readReg_decSp_eq_ite]

end Sys2Proof.Machine
end

section
/-! Every register write goes through the masked write path (10_state.md R12). -/

namespace Sys2Proof.Machine

/-- The masked write path stores the value modulo 256. -/
theorem State.toNat_readReg_writeReg (s : State) (r : RegIdx) (v : Int) :
    (((s.writeReg r v).readReg r).toNat : Int) = v % 256 := by
  rw [State.readReg_writeReg, if_pos rfl, BitVec.toNat_ofInt]
  omega

/-- Writing the arithmetic unit's sum is writing the exact sum: the write path reduces it the same. -/
theorem State.aluInto_add (s : State) (ra rb : RegIdx) :
    s.aluInto .add ra rb =
      s.writeReg ra (((s.readReg ra).toNat : Int) + ((s.readReg rb).toNat : Int)) := by
  have hv : BitVec.ofInt 8 ((alu .add (s.readReg ra) (s.readReg rb)).toNat : Int) =
      BitVec.ofInt 8 (((s.readReg ra).toNat : Int) + ((s.readReg rb).toNat : Int)) := by
    apply BitVec.eq_of_toNat_eq
    rw [BitVec.toNat_ofInt, BitVec.toNat_ofInt, toNat_alu_add]
    omega
  simp only [State.aluInto, State.writeReg, hv]

/-- Writing the arithmetic unit's product is writing the exact product. -/
theorem State.aluInto_mul (s : State) (ra rb : RegIdx) :
    s.aluInto .mul ra rb =
      s.writeReg ra (((s.readReg ra).toNat : Int) * ((s.readReg rb).toNat : Int)) := by
  have hv : BitVec.ofInt 8 ((alu .mul (s.readReg ra) (s.readReg rb)).toNat : Int) =
      BitVec.ofInt 8 (((s.readReg ra).toNat : Int) * ((s.readReg rb).toNat : Int)) := by
    apply BitVec.eq_of_toNat_eq
    rw [BitVec.toNat_ofInt, BitVec.toNat_ofInt, toNat_alu_mul]
    omega
  simp only [State.aluInto, State.writeReg, hv]

/-- Settles O29: each handler's register file is that of its masked writes. -/
theorem registerWritesAreMasked : Obligations.RegisterWritesAreMasked := by
  refine ⟨State.toNat_readReg_writeReg, fun s a imm ra ha => ?_,
    fun s a b ra rb ha hb => ⟨?_, ?_, ?_, ?_, ?_, ?_⟩⟩
  · exact ⟨_, exec_ldi ha imm s, rfl⟩
  · refine ⟨_, exec_add ha hb s, ?_⟩
    rw [State.advance_x, State.aluInto_add]
  · refine ⟨_, exec_mul ha hb s, ?_⟩
    rw [State.advance_x, State.aluInto_mul]
  · refine ⟨_, exec_pop ha s, ?_⟩
    rw [State.advance_x, State.incSp, State.sp_writeReg, ofInt_toNat]
    rfl
  · exact ⟨_, exec_push ha s, rfl⟩
  · exact ⟨_, exec_call ha s, rfl⟩
  · exact ⟨_, exec_ret s, rfl⟩

end Sys2Proof.Machine
end

section
/-! The canonical form of memory is canonical (20_memory.md R30). -/

namespace Sys2Proof.Machine

theorem Memory.read_cons_self (k : Nat) (w : Byte) (m : Memory) :
    Memory.read ((k, w) :: m) k = w :=
  if_pos rfl

theorem Memory.read_cons_of_ne {k addr : Nat} (hne : k ≠ addr) (w : Byte) (m : Memory) :
    Memory.read ((k, w) :: m) addr = Memory.read m addr :=
  if_neg hne

theorem Memory.wfFrom_cons {lo k : Nat} {w : Byte} {m : Memory} :
    Memory.wfFrom lo ((k, w) :: m) = true ↔
      lo ≤ k ∧ k < Config.memCells ∧ w ≠ Config.memFill ∧ Memory.wfFrom (k + 1) m = true := by
  simp only [Memory.wfFrom, Bool.and_eq_true, decide_eq_true_eq, and_assoc]

/-- A canonical memory that reads a byte other than the fill byte at `addr` lists a cell at `addr` or
below. -/
theorem Memory.exists_cons_of_read_ne_fill {lo addr : Nat} {m : Memory}
    (h : Memory.wfFrom lo m = true) (hread : Memory.read m addr ≠ Config.memFill) :
    ∃ k w m', m = (k, w) :: m' ∧ k ≤ addr := by
  cases m with
  | nil => exact absurd rfl hread
  | cons c m =>
    obtain ⟨k, w⟩ := c
    refine ⟨k, w, m, rfl, ?_⟩
    by_contra hk
    obtain ⟨-, hcell, hfill, hm⟩ := Memory.wfFrom_cons.mp h
    exact hread (Memory.read_eq_fill_of_lt (lo := k)
      (Memory.wfFrom_cons.mpr ⟨le_rfl, hcell, hfill, hm⟩) (by omega))

/-- Two canonical memories that read alike on every cell are the same list: each one's first cell reads a
byte other than the fill byte, so that the other's first cell is no later, and they agree. -/
theorem Memory.eq_of_read_eq {lo : Nat} {m m' : Memory} (h : Memory.wfFrom lo m = true)
    (h' : Memory.wfFrom lo m' = true)
    (hread : ∀ addr, addr < Config.memCells → Memory.read m addr = Memory.read m' addr) :
    m = m' := by
  induction m generalizing lo m' with
  | nil =>
    cases m' with
    | nil => rfl
    | cons c m' =>
      obtain ⟨k, w⟩ := c
      obtain ⟨-, hk, hw, -⟩ := Memory.wfFrom_cons.mp h'
      have hfill := hread k hk
      rw [Memory.read_cons_self] at hfill
      exact absurd hfill.symm hw
  | cons c m ih =>
    obtain ⟨k, w⟩ := c
    obtain ⟨-, hk, hw, hm⟩ := Memory.wfFrom_cons.mp h
    have hkw : Memory.read m' k = w := by rw [← hread k hk, Memory.read_cons_self]
    obtain ⟨k', w', m', rfl, hle⟩ := Memory.exists_cons_of_read_ne_fill h' (hkw ▸ hw)
    obtain ⟨-, hk', hw', hm'⟩ := Memory.wfFrom_cons.mp h'
    have hkw' : Memory.read ((k, w) :: m) k' = w' := by
      rw [hread k' hk', Memory.read_cons_self]
    obtain ⟨_, _, _, hcons, hle'⟩ := Memory.exists_cons_of_read_ne_fill h (hkw' ▸ hw')
    obtain ⟨⟨rfl, rfl⟩, rfl⟩ := by simpa only [List.cons.injEq, Prod.mk.injEq] using hcons
    obtain rfl := Nat.le_antisymm hle hle'
    obtain rfl := (Memory.read_cons_self k' w' m').symm.trans hkw
    refine congrArg _ (ih hm hm' fun addr haddr => ?_)
    by_cases he : k' = addr
    · rw [Memory.read_eq_fill_of_lt hm (by omega), Memory.read_eq_fill_of_lt hm' (by omega)]
    · simpa only [Memory.read_cons_of_ne he] using hread addr haddr

/-- Settles O32. -/
theorem canonicalMemoryUnique : Obligations.CanonicalMemoryUnique :=
  fun _ _ => Memory.eq_of_read_eq

end Sys2Proof.Machine
end

section
/-! Who writes a register, who writes memory, who transfers control (10_state.md R10; 20_memory.md R32;
45_subroutine.md R122). -/

namespace Sys2Proof.Machine

/-- A register index in operand a is the byte in slot a. -/
theorem slotA_of_indexed {i : Instr} {a b : Byte} {ra rb : RegIdx}
    (hi : opcodeOf i ∈ indexedOpcodes) (hsl : slotsOf i a b) (ho : operandsAre i ra rb) :
    a.toNat = ra.val := by
  cases i with
  | ldi => exact hsl.1 ▸ ho
  | add | mul => exact hsl.1 ▸ ho.1
  | prn x | push x | pop x | call x =>
    obtain rfl := hsl
    exact ho
  | hlt => exact absurd rfl ((opcodeOf_mem_indexed _).mp hi).1
  | ret => exact absurd rfl ((opcodeOf_mem_indexed _).mp hi).2

/-- The registers a handler can change: its operand a, or the stack pointer (10_state.md R10). -/
theorem written_of_completed_readReg_ne {i : Instr} {ra rb r : RegIdx} {s : State}
    (h : (completed i ra rb s).readReg r ≠ s.readReg r) :
    (opcodeOf i ∈ [0x82#8, 0xA0#8, 0xA2#8, 0x46#8] ∧ r = ra) ∨
      (opcodeOf i ∈ [0x45#8, 0x46#8, 0x50#8, 0x11#8] ∧ r = 7) := by
  cases i with
  | ldi a imm =>
    exact .inl ⟨by simp [opcodeOf, opLdi],
      not_imp_comm.mp (fun hne => s.readReg_writeReg_of_ne hne imm.toNat) h⟩
  | add a b =>
    exact .inl ⟨by simp [opcodeOf, opAdd],
      not_imp_comm.mp (s.readReg_aluInto_of_ne .add rb) h⟩
  | mul a b =>
    exact .inl ⟨by simp [opcodeOf, opMul],
      not_imp_comm.mp (s.readReg_aluInto_of_ne .mul rb) h⟩
  | pop a =>
    by_cases hra : r = ra
    · exact .inl ⟨by simp [opcodeOf, opPop], hra⟩
    · refine .inr ⟨by simp [opcodeOf, opPop], not_imp_comm.mp (fun h7 => ?_) h⟩
      refine (s.readReg_writeReg_incSp ra r (s.load s.sp)).trans ?_
      rw [if_neg h7, if_neg (Ne.symm hra)]
  | push a =>
    exact .inr ⟨by simp [opcodeOf, opPush],
      not_imp_comm.mp (s.readReg_stackPush_of_ne (s.decSp.readReg ra)) h⟩
  | call a =>
    exact .inr ⟨by simp [opcodeOf, opCall],
      not_imp_comm.mp (s.readReg_stackPush_of_ne s.returnAddress) h⟩
  | ret =>
    exact .inr ⟨by simp [opcodeOf, opRet], not_imp_comm.mp s.readReg_incSp_of_ne h⟩
  | prn | hlt => exact absurd rfl h

/-- Settles O35: a fault writes no register, and a handler only those of the table. -/
theorem registersWrittenOnlyAsListed : Obligations.RegistersWrittenOnlyAsListed := by
  intro s t r h hne
  obtain ⟨c, op, addr, rfl⟩ | ⟨-, i, ra, rb, hd, ho, rfl⟩ := step_raises_or_completes h
  · exact absurd rfl hne
  · obtain ⟨hop, hsl⟩ := (decode_eq_ok_iff _ _ _ _).mp hd
    rw [hop]
    refine (written_of_completed_readReg_ne hne).imp_left ?_
    rintro ⟨hmem, rfl⟩
    have hsub : [0x82#8, 0xA0#8, 0xA2#8, 0x46#8] ⊆ indexedOpcodes := by decide
    exact ⟨hmem, slotA_of_indexed (hsub hmem) hsl ho⟩

/-- The one byte a handler can change: PUSH's and CALL's, at the decremented stack pointer. -/
theorem written_of_completed_read_ne {i : Instr} {ra rb : RegIdx} {s : State} {addr : Nat}
    (hwf : Memory.wf s.mem = true)
    (h : Memory.read (completed i ra rb s).mem addr ≠ Memory.read s.mem addr) :
    opcodeOf i ∈ [0x45#8, 0x50#8] ∧ addr = s.decSp.sp.toNat := by
  cases i with
  | push a =>
    exact ⟨by simp [opcodeOf, opPush],
      not_imp_comm.mp (State.read_stackPush_of_ne hwf (s.decSp.readReg ra)) h⟩
  | call a =>
    exact ⟨by simp [opcodeOf, opCall],
      not_imp_comm.mp (State.read_stackPush_of_ne hwf s.returnAddress) h⟩
  | _ => exact absurd rfl h

/-- Settles O36: a fault writes no byte, and a handler only PUSH's or CALL's. -/
theorem memoryWrittenOnlyByPushCall : Obligations.MemoryWrittenOnlyByPushCall := by
  intro s t addr hwf h hne
  obtain ⟨c, op, faddr, rfl⟩ | ⟨-, i, ra, rb, hd, -, rfl⟩ := step_raises_or_completes h
  · exact absurd rfl hne
  · obtain ⟨hmem, haddr⟩ := written_of_completed_read_ne hwf hne
    rw [((decode_eq_ok_iff _ _ _ _).mp hd).1, State.sp_decSp]
    exact ⟨hmem, s.sp_decSp ▸ haddr, toNat_sub_one s.sp⟩

/-- Settles O37: what does not fault completes, and a completed handler falls through or jumps to a
byte. -/
theorem onlyCallRetTransferControl : Obligations.OnlyCallRetTransferControl := by
  intro i s t h hn
  obtain ⟨ra, rb, ho, hc⟩ | ⟨-, hf⟩ := exec_cases i s
  · obtain rfl := Host.Outcome.next.inj (h.symm.trans hc)
    refine ⟨fun hcall hret => completed_pc_of_not_transfer hcall hret ra rb s, ?_, ?_,
      fun htr => completed_pc_le_of_transfer htr ra rb s⟩
    · rintro a rfl
      exact ⟨ra, ho, toNat_zext9 _⟩
    · rintro rfl
      exact toNat_zext9 _
  · obtain rfl := Host.Outcome.next.inj (h.symm.trans hf)
    exact absurd rfl hn

end Sys2Proof.Machine
end

section
/-! The stack across two steps: the round trips of PUSH and POP, CALL and RET, PUSH and RET (44_stack.md
R119; 45_subroutine.md R121, R124), and stored bytes that are fetched (20_memory.md R42). -/

namespace Sys2Proof.Machine

/-! What a step from a stack instruction with a register operand answers. -/

theorem step_push {s : State} {r : RegIdx} (hr : s.run = .running) (hp : s.pc.toNat ≤ 253)
    (hop : s.opcodeAt = opPush) (ha : s.slotA.toNat = r.val) :
    step s = .next ((s.stackPush (s.decSp.readReg r)).advance opPush) :=
  (step_of_opcodeOf (i := .push s.slotA) hr hp hop rfl).trans (exec_push ha s)

theorem step_pop {s : State} {r : RegIdx} (hr : s.run = .running) (hp : s.pc.toNat ≤ 253)
    (hop : s.opcodeAt = opPop) (ha : s.slotA.toNat = r.val) :
    step s = .next ((s.writeReg r (s.load s.sp).toNat).incSp.advance opPop) :=
  (step_of_opcodeOf (i := .pop s.slotA) hr hp hop rfl).trans (exec_pop ha s)

theorem step_call {s : State} {r : RegIdx} (hr : s.run = .running) (hp : s.pc.toNat ≤ 253)
    (hop : s.opcodeAt = opCall) (ha : s.slotA.toNat = r.val) :
    step s = .next ((s.stackPush s.returnAddress).setPc (zext9 (s.decSp.readReg r))) :=
  (step_of_opcodeOf (i := .call s.slotA) hr hp hop rfl).trans (exec_call ha s)

theorem step_ret {s : State} (hr : s.run = .running) (hp : s.pc.toNat ≤ 253)
    (hop : s.opcodeAt = opRet) : step s = .next (s.incSp.setPc (zext9 (s.load s.sp))) :=
  (step_of_opcodeOf (i := .ret) hr hp hop trivial).trans (exec_ret s)

/-- The state a PUSH of register `r` leaves (44_stack.md R116). -/
def State.afterPush (s : State) (r : RegIdx) : State :=
  (s.stackPush (s.decSp.readReg r)).advance opPush

theorem State.afterPush_pc (s : State) (r : RegIdx) : (s.afterPush r).pc = s.pc + 2#9 := rfl

theorem State.toNat_pc_add_two {s : State} (hp : s.pc.toNat ≤ 253) :
    (s.pc + 2#9).toNat = s.pc.toNat + 2 := by
  rw [BitVec.toNat_add, BitVec.toNat_ofNat]
  omega

theorem State.sp_afterPush (s : State) (r : RegIdx) : (s.afterPush r).sp = s.sp - 1 :=
  s.sp_decSp

theorem State.readReg_afterPush (s : State) (r q : RegIdx) :
    (s.afterPush r).readReg q = s.decSp.readReg q := rfl

/-- The byte on top of the stack after a PUSH is the register as the decrement left it. -/
theorem State.load_afterPush {s : State} (h : Memory.wf s.mem = true) (r : RegIdx) :
    (s.afterPush r).load (s.afterPush r).sp = s.decSp.readReg r :=
  State.read_stackPush_sp h _

/-- A PUSH that misses the instruction after it leaves that instruction's opcode. -/
theorem State.opcodeAt_afterPush {s : State} (h : Memory.wf s.mem = true) (hp : s.pc.toNat ≤ 253)
    (r : RegIdx) (hmiss : s.decSp.sp.toNat ≠ s.pc.toNat + 2) :
    (s.afterPush r).opcodeAt = s.slotB := by
  rw [State.opcodeAt, State.afterPush_pc, State.toNat_pc_add_two hp]
  exact State.read_stackPush_of_ne h _ hmiss.symm

/-- A PUSH that misses the next instruction's operand a leaves it. -/
theorem State.slotA_afterPush {s : State} (h : Memory.wf s.mem = true) (hp : s.pc.toNat ≤ 253)
    (r : RegIdx) (hmiss : s.decSp.sp.toNat ≠ s.pc.toNat + 3) :
    (s.afterPush r).slotA = Memory.read s.mem (s.pc.toNat + 3) := by
  rw [State.slotA, State.afterPush_pc, State.toNat_pc_add_two hp]
  exact State.read_stackPush_of_ne h _ hmiss.symm

/-- The increment undoes the decrement of a PUSH, at both wraps too (R119). -/
theorem State.sp_afterPush_add_one (s : State) (r : RegIdx) : (s.afterPush r).sp + 1 = s.sp := by
  rw [State.sp_afterPush, BitVec.sub_add_cancel]

/-- The registers after PUSH and POP of one register are those before: the register receives the byte
pushed, the stack pointer goes back up; for register 7 the byte is the decremented stack pointer. -/
theorem State.readReg_pushPop {s : State} (h : Memory.wf s.mem = true) (r q : RegIdx) :
    ((s.afterPush r).writeReg r ((s.afterPush r).load (s.afterPush r).sp).toNat).incSp.readReg q =
      s.readReg q := by
  rw [State.readReg_writeReg_incSp, State.load_afterPush h]
  by_cases hq : q = 7
  · subst hq
    have hbyte : (if r = 7 then s.decSp.readReg r else (s.afterPush r).sp) = (s.afterPush r).sp := by
      split
      · subst r
        rfl
      · rfl
    rw [if_pos rfl, hbyte, State.sp_afterPush_add_one, State.readReg_seven]
  · have hkeep : s.decSp.readReg q = s.readReg q := s.readReg_stackPush_of_ne 0 hq
    rw [if_neg hq, State.readReg_afterPush, hkeep]
    split
    · subst r
      exact hkeep
    · rfl

/-- Settles O38: the store misses the POP, which therefore runs next and finds the byte pushed. -/
theorem pushPopRoundTrip : Obligations.PushPopRoundTrip := by
  intro s r h hr hp hop ha hb ha' hmiss2 hmiss3
  have hp' : s.pc.toNat ≤ 253 := by omega
  have hpcu : (s.afterPush r).pc.toNat = s.pc.toNat + 2 := State.toNat_pc_add_two hp'
  have hpu : (s.afterPush r).pc.toNat ≤ 253 := by omega
  have hopu := (State.opcodeAt_afterPush h hp' r hmiss2).trans hb
  have hau : (s.afterPush r).slotA.toNat = r.val := by
    rw [State.slotA_afterPush h hp' r hmiss3, ha', ha]
  refine ⟨s.afterPush r, _, step_push hr hp' hop ha, step_pop hr hpu hopu hau,
    State.readReg_pushPop h r, ?_, fun _ => State.read_stackPush_of_ne h _, ?_, hr, rfl, rfl⟩
  · exact (State.load_afterPush h r).trans (s.readReg_decSp_eq_ite r)
  · exact (State.toNat_pc_add_two hpu).trans (by rw [hpcu])

/-- Settles O39: the cell holds the return address, and the increment undoes CALL's decrement. -/
theorem callThenRetResumes : Obligations.CallThenRetResumes := by
  intro s r h hr hp hop ha
  refine ⟨_, step_call hr hp hop ha, fun u hur hup huop hsp hcell => ?_⟩
  refine ⟨_, step_ret hur hup huop, ?_, ?_⟩
  · have hload : u.load u.sp = s.returnAddress := by
      rw [State.load, hsp, hcell]
      exact State.read_stackPush_sp h _
    rw [State.setPc_pc, toNat_zext9, hload, State.toNat_returnAddress hp]
  · rw [State.sp_setPc, State.sp_incSp, hsp, State.sp_setPc, State.sp_stackPush,
      BitVec.sub_add_cancel]

/-- Settles O40: the store misses the RET, which pops the byte pushed into `pc`. -/
theorem pushThenRetJumps : Obligations.PushThenRetJumps := by
  intro s r h hr hp hop ha hb hmiss
  have hp' : s.pc.toNat ≤ 253 := by omega
  have hpcu : (s.afterPush r).pc.toNat = s.pc.toNat + 2 := State.toNat_pc_add_two hp'
  have hpu : (s.afterPush r).pc.toNat ≤ 253 := by omega
  have hopu := (State.opcodeAt_afterPush h hp' r hmiss).trans hb
  refine ⟨s.afterPush r, _, step_push hr hp' hop ha, step_ret hr hpu hopu, fun q => ?_, ?_⟩
  · rw [State.readReg_setPc, State.readReg_incSp, State.sp_afterPush_add_one,
      State.readReg_afterPush, State.readReg_decSp]
    split
    · subst q
      rfl
    · rfl
  · rw [State.setPc_pc, toNat_zext9, State.load_afterPush h, State.readReg_decSp_eq_ite]

/-- A PUSH or CALL that ends RUNNING left its byte at the stack pointer. -/
theorem read_sp_of_step_store {s t : State} {r : RegIdx} {v : Byte}
    (hwf : Memory.wf s.mem = true) (h : step s = .next t) (ht : t.run = .running)
    (ha : s.slotA.toNat = r.val)
    (hv : (s.opcodeAt = opPush ∧ v = s.decSp.readReg r) ∨
      (s.opcodeAt = opCall ∧ v = s.returnAddress)) :
    Memory.read t.mem t.sp.toNat = v := by
  obtain ⟨hr, ⟨-, rfl⟩ | ⟨-, -, rfl⟩ | ⟨-, hp, -⟩⟩ := step_cases h
  · cases ht
  · cases ht
  · obtain ⟨hop, rfl⟩ | ⟨hop, rfl⟩ := hv
    · obtain rfl := Host.Outcome.next.inj (h.symm.trans (step_push hr hp hop ha))
      exact State.read_stackPush_sp hwf _
    · obtain rfl := Host.Outcome.next.inj (h.symm.trans (step_call hr hp hop ha))
      exact State.read_stackPush_sp hwf _

/-- Settles O41: the next fetch reads memory as the store left it, at whichever of its three addresses
the byte stands. -/
theorem storedBytesAreFetchedNext : Obligations.StoredBytesAreFetchedNext := by
  intro s t r v hwf h ht ha hv hpc
  have hstored := read_sp_of_step_store hwf h ht ha hv
  have hread (addr : Nat) (he : addr = t.sp.toNat) : Memory.read t.mem addr = v :=
    he ▸ hstored
  exact ⟨_, fetch_of_le hpc, hread _, hread _, hread _⟩

end Sys2Proof.Machine
end
